-- ==== Sys2Proof/Word.lean ====
section
/-! DEFINITION. The word types of the machine: all unsigned (00_scope.md, Conventions). -/

namespace Sys2Proof

/-- A general register, a timer, a memory cell: 8 bits (10_state.md R10, R18, R20). -/
abbrev Byte := BitVec 8

/-- The instruction word, `I`, `PC`, a stack entry: 16 bits (10_state.md R13, R14, R16, R23). -/
abbrev Word := BitVec 16

/-- A 4-bit field of the instruction word: a register index, a row count (30_encoding.md R48). -/
abbrev Nibble := BitVec 4

/-- A 12-bit address field of the instruction word (30_encoding.md R48). -/
abbrev Addr12 := BitVec 12

end Sys2Proof
end

