-- ==== Sys2Proof/Machine/Slots.lean ====
section
/-! DEFINITION. The unassigned slots of the dispatch tables, as words (30_encoding.md R56; the slots' numbers: log 3). -/

namespace Sys2Proof

/-- The unassigned words, listed as 30_encoding.md R56 lists them. -/
def isUnassigned (w : Word) : Bool :=
  let low := (w.extractLsb' 0 4).toNat
  match (w.extractLsb' 12 4).toNat with
  | 0x0 => !([0x0, 0xE].contains low)
  | 0x8 => [0x8, 0x9, 0xA, 0xB, 0xC, 0xD, 0xF].contains low
  | 0xE => !([0x1, 0xE].contains low)
  | 0xF => !([0x07, 0x0A, 0x15, 0x18, 0x1E, 0x29, 0x33, 0x55, 0x65].contains (w.extractLsb' 0 8).toNat)
  | _ => false

end Sys2Proof
end

