-- ==== Sys2Proof/Syntax.lean ====
section
/-! DEFINITION. The instructions: one constructor per mnemonic of spec/opcode_table.json (30_encoding.md R51 to R56).
The 282 `NOP` rows, one per unassigned slot, are one constructor that carries its word. -/

namespace Sys2Proof

/-- An instruction. `x`, `y`, `n`, `kk`, `nnn` are the fields of 30_encoding.md R48. The fields named `ign` are the bits the
decoding does not examine and the instruction does not use (R57): they are kept so that an instruction and its word
determine each other, and no meaning reads them (log 19). `SHR` and `SHL` carry their unused `y` (R81, R83). -/
inductive Instr where
  | cls (ign : Byte)                     -- 0??0
  | ret (ign : Byte)                     -- 0??E
  | jp (nnn : Addr12)                    -- 1nnn
  | call (nnn : Addr12)                  -- 2nnn
  | seImm (x : Nibble) (kk : Byte)       -- 3xkk
  | sneImm (x : Nibble) (kk : Byte)      -- 4xkk
  | seReg (x y ign : Nibble)             -- 5xy?
  | ldImm (x : Nibble) (kk : Byte)       -- 6xkk
  | addImm (x : Nibble) (kk : Byte)      -- 7xkk
  | ldReg (x y : Nibble)                 -- 8xy0
  | orReg (x y : Nibble)                 -- 8xy1
  | andReg (x y : Nibble)                -- 8xy2
  | xorReg (x y : Nibble)                -- 8xy3
  | addReg (x y : Nibble)                -- 8xy4
  | subReg (x y : Nibble)                -- 8xy5
  | shr (x y : Nibble)                   -- 8xy6
  | subn (x y : Nibble)                  -- 8xy7
  | shl (x y : Nibble)                   -- 8xyE
  | sneReg (x y ign : Nibble)            -- 9xy?
  | ldI (nnn : Addr12)                   -- Annn
  | jpV0 (nnn : Addr12)                  -- Bnnn
  | rnd (x : Nibble) (kk : Byte)         -- Cxkk
  | drw (x y n : Nibble)                 -- Dxyn
  | sknp (x ign : Nibble)                -- Ex?1
  | skp (x ign : Nibble)                 -- Ex?E
  | ldVxDt (x : Nibble)                  -- Fx07
  | ldVxK (x : Nibble)                   -- Fx0A
  | ldDtVx (x : Nibble)                  -- Fx15
  | ldStVx (x : Nibble)                  -- Fx18
  | addI (x : Nibble)                    -- Fx1E
  | ldF (x : Nibble)                     -- Fx29
  | ldB (x : Nibble)                     -- Fx33
  | storeRegs (x : Nibble)               -- Fx55
  | loadRegs (x : Nibble)                -- Fx65
  | nop (w : Word)                       -- every unassigned slot (R56)
  deriving DecidableEq, Repr

end Sys2Proof
end

