-- ==== Sys2Proof/Decode.lean ====
section
/-! DEFINITION. The decoder and the encoder (30_encoding.md R46, R48, R51 to R58). Opcode numbers other than the screen
clear's are the spec's decision D9 (PRESUMED, unsafe, log 3); the dispatch examines only the bits R51 to R55 name (log 20). -/

namespace Sys2Proof

/-- `op`, the leading nibble (R48). -/
def fieldOp (w : Word) : Nibble := w.extractLsb' 12 4

/-- `x` (R48). -/
def fieldX (w : Word) : Nibble := w.extractLsb' 8 4

/-- `y` (R48). -/
def fieldY (w : Word) : Nibble := w.extractLsb' 4 4

/-- `n`, the trailing nibble (R48). -/
def fieldN (w : Word) : Nibble := w.extractLsb' 0 4

/-- `kk`, the trailing byte (R48). -/
def fieldKK (w : Word) : Byte := w.extractLsb' 0 8

/-- `nnn` (R48). -/
def fieldNNN (w : Word) : Addr12 := w.extractLsb' 0 12

/-- Bits 11..4, ignored in format `Z` (R49, R52). -/
def fieldMid (w : Word) : Byte := w.extractLsb' 4 8

/-- "high byte first": the word of two bytes of memory (R46). -/
def composeWord (hi lo : Byte) : Word := hi ++ lo

/-- The two bytes of a word, in the order they stand in memory (R46, R50). -/
def bytesOfWord (w : Word) : List Byte := [w.extractLsb' 8 8, w.extractLsb' 0 8]

/-- Secondary table 0, on the trailing nibble (R52, R56). -/
def decodeGroup0 (w : Word) : Instr :=
  match (fieldN w).toNat with
  | 0x0 => .cls (fieldMid w)
  | 0xE => .ret (fieldMid w)
  | _ => .nop w

/-- Secondary table 8, on the trailing nibble (R53, R56). -/
def decodeGroup8 (w : Word) : Instr :=
  match (fieldN w).toNat with
  | 0x0 => .ldReg (fieldX w) (fieldY w)
  | 0x1 => .orReg (fieldX w) (fieldY w)
  | 0x2 => .andReg (fieldX w) (fieldY w)
  | 0x3 => .xorReg (fieldX w) (fieldY w)
  | 0x4 => .addReg (fieldX w) (fieldY w)
  | 0x5 => .subReg (fieldX w) (fieldY w)
  | 0x6 => .shr (fieldX w) (fieldY w)
  | 0x7 => .subn (fieldX w) (fieldY w)
  | 0xE => .shl (fieldX w) (fieldY w)
  | _ => .nop w

/-- Secondary table E, on the trailing nibble (R54, R56). -/
def decodeGroupE (w : Word) : Instr :=
  match (fieldN w).toNat with
  | 0x1 => .sknp (fieldX w) (fieldY w)
  | 0xE => .skp (fieldX w) (fieldY w)
  | _ => .nop w

/-- Secondary table F, on the trailing byte (R55, R56). -/
def decodeGroupF (w : Word) : Instr :=
  match (fieldKK w).toNat with
  | 0x07 => .ldVxDt (fieldX w)
  | 0x0A => .ldVxK (fieldX w)
  | 0x15 => .ldDtVx (fieldX w)
  | 0x18 => .ldStVx (fieldX w)
  | 0x1E => .addI (fieldX w)
  | 0x29 => .ldF (fieldX w)
  | 0x33 => .ldB (fieldX w)
  | 0x55 => .storeRegs (fieldX w)
  | 0x65 => .loadRegs (fieldX w)
  | _ => .nop w

/-- Primary dispatch on the leading nibble: total, one instruction per word (R51, R58). -/
def decodeWord (w : Word) : Instr :=
  match (fieldOp w).toNat with
  | 0x0 => decodeGroup0 w
  | 0x1 => .jp (fieldNNN w)
  | 0x2 => .call (fieldNNN w)
  | 0x3 => .seImm (fieldX w) (fieldKK w)
  | 0x4 => .sneImm (fieldX w) (fieldKK w)
  | 0x5 => .seReg (fieldX w) (fieldY w) (fieldN w)
  | 0x6 => .ldImm (fieldX w) (fieldKK w)
  | 0x7 => .addImm (fieldX w) (fieldKK w)
  | 0x8 => decodeGroup8 w
  | 0x9 => .sneReg (fieldX w) (fieldY w) (fieldN w)
  | 0xA => .ldI (fieldNNN w)
  | 0xB => .jpV0 (fieldNNN w)
  | 0xC => .rnd (fieldX w) (fieldKK w)
  | 0xD => .drw (fieldX w) (fieldY w) (fieldN w)
  | 0xE => decodeGroupE w
  | _ => decodeGroupF w

/-- Why a string of bytes holds no instruction: the only way is that it is too short (R48, R58). -/
inductive DecodeError where
  /-- Fewer than two bytes. -/
  | tooFewBytes
  deriving DecidableEq, Repr

/-- The instruction at the head of a list of bytes, and the bytes after it (R46, R48). -/
def decode : List Byte → Except DecodeError (Instr × List Byte)
  | hi :: lo :: rest => .ok (decodeWord (composeWord hi lo), rest)
  | [] => .error .tooFewBytes
  | [_] => .error .tooFewBytes

/-- Format `Z` (R49). -/
def packZ (mid : Byte) (sub : Nibble) : Word := 0x0#4 ++ mid ++ sub

/-- Format `NNN` (R49). -/
def packNNN (op : Nibble) (nnn : Addr12) : Word := op ++ nnn

/-- Formats `XKK` and `XS8` (R49). -/
def packXKK (op x : Nibble) (kk : Byte) : Word := op ++ x ++ kk

/-- Formats `XY`, `XYS`, `XYN` and `XS4` (R49). -/
def packXYN (op x y n : Nibble) : Word := op ++ x ++ y ++ n

/-- The word of an instruction, from the encodings of R51 to R55 and the formats of R49. -/
def encodeWord : Instr → Word
  | .cls ign => packZ ign 0x0#4
  | .ret ign => packZ ign 0xE#4
  | .jp nnn => packNNN 0x1#4 nnn
  | .call nnn => packNNN 0x2#4 nnn
  | .seImm x kk => packXKK 0x3#4 x kk
  | .sneImm x kk => packXKK 0x4#4 x kk
  | .seReg x y ign => packXYN 0x5#4 x y ign
  | .ldImm x kk => packXKK 0x6#4 x kk
  | .addImm x kk => packXKK 0x7#4 x kk
  | .ldReg x y => packXYN 0x8#4 x y 0x0#4
  | .orReg x y => packXYN 0x8#4 x y 0x1#4
  | .andReg x y => packXYN 0x8#4 x y 0x2#4
  | .xorReg x y => packXYN 0x8#4 x y 0x3#4
  | .addReg x y => packXYN 0x8#4 x y 0x4#4
  | .subReg x y => packXYN 0x8#4 x y 0x5#4
  | .shr x y => packXYN 0x8#4 x y 0x6#4
  | .subn x y => packXYN 0x8#4 x y 0x7#4
  | .shl x y => packXYN 0x8#4 x y 0xE#4
  | .sneReg x y ign => packXYN 0x9#4 x y ign
  | .ldI nnn => packNNN 0xA#4 nnn
  | .jpV0 nnn => packNNN 0xB#4 nnn
  | .rnd x kk => packXKK 0xC#4 x kk
  | .drw x y n => packXYN 0xD#4 x y n
  | .sknp x ign => packXYN 0xE#4 x ign 0x1#4
  | .skp x ign => packXYN 0xE#4 x ign 0xE#4
  | .ldVxDt x => packXKK 0xF#4 x 0x07#8
  | .ldVxK x => packXKK 0xF#4 x 0x0A#8
  | .ldDtVx x => packXKK 0xF#4 x 0x15#8
  | .ldStVx x => packXKK 0xF#4 x 0x18#8
  | .addI x => packXKK 0xF#4 x 0x1E#8
  | .ldF x => packXKK 0xF#4 x 0x29#8
  | .ldB x => packXKK 0xF#4 x 0x33#8
  | .storeRegs x => packXKK 0xF#4 x 0x55#8
  | .loadRegs x => packXKK 0xF#4 x 0x65#8
  | .nop w => w

/-- The bytes of an instruction, in the order they stand in memory (R46, R50). -/
def encode (i : Instr) : List Byte := bytesOfWord (encodeWord i)

/-- The low `nbits` bits of `w` as one instruction word: every bit above them is 0. -/
def tableWord (nbits w : Nat) : Word := BitVec.ofNat 16 (w % 2 ^ nbits)

/-- The host's question: what the decoder reads from the instruction whose bits are `w`, numbered as
spec/opcode_table.json numbers them (bit 0 the least significant of the one 16-bit word). -/
def decodeTableWord (nbits w : Nat) : Option Instr :=
  match decode (bytesOfWord (tableWord nbits w)) with
  | .ok (i, _) => some i
  | .error _ => none

end Sys2Proof
end

