-- ==== Sys2Proof/Config.lean ====
section
/-! DEFINITION. The fixed sizes of the machine (00_scope.md R4) and its one free value, the random byte (R24). -/

namespace Sys2Proof.Config

/-- `MEM_SIZE`: "a byte-addressable array of 4096 bytes" (00_scope.md R4, 20_memory.md R30). -/
abbrev memSize : Nat := 4096

/-- `PROG_BASE`: where `Load` puts the image (00_scope.md R4, 70_reset_and_hazards.md R132). -/
abbrev progBase : Nat := 0x200

/-- The most bytes a `Load` may bring: 0x200 + 3584 = 0x1000 (70_reset_and_hazards.md R133). -/
abbrev maxImage : Nat := 3584

/-- `PC_RESET` (00_scope.md R4, 70_reset_and_hazards.md R131). -/
abbrev pcReset : Word := 0x200#16

/-- `GLYPH_BASE` (00_scope.md R4, 20_memory.md R31). -/
abbrev glyphBase : Nat := 0x050

/-- `GLYPH_COUNT * GLYPH_BYTES` = 16 * 5 (00_scope.md R4). -/
abbrev glyphSize : Nat := 80

/-- `STACK_DEPTH` (00_scope.md R4, 10_state.md R16). -/
abbrev stackDepth : Nat := 16

/-- `FB_H`, rows (00_scope.md R4; which of 64 and 32 is the width: log 18). -/
abbrev fbRows : Nat := 32

/-- `FB_W`, columns, which is also `WRAP_X` and `WRAP_Y` (00_scope.md R4, 48_draw.md R105). -/
abbrev fbCols : Nat := 64

/-- FREE VALUE. The random byte of the k-th `RND` since power-on (10_state.md R24, 44_random.md R88): it has no body, so
nothing can be proved of it but that it is a byte. The spec's `rnd` is an input of the step "under no law"
(DESIGN CHOICE of form, log 1: safe). -/
opaque rnd : Nat → Byte

end Sys2Proof.Config
end

