-- ==== Sys2Proof/Machine/State.lean ====
section
/-! DEFINITION. The machine's state, all of 10_state.md section 1, as plain data; the reasons a step can stop; the state after
reset (10_state.md R28). -/

namespace Sys2Proof.Machine

/-- `MEM` (10_state.md R20) as (address, byte) pairs: addresses strictly rising, no entry equal to what an unlisted address
reads as, `Memory.initial` in Ops.lean (log 12). -/
abbrev Memory := List Host.Cell

/-- `FB` (10_state.md R21): 32 rows of 64 pixels, true for "fully on" (log 18). -/
abbrev Frame := Vector (Vector Bool 64) 32

/-- Everything the spec gives the machine (10_state.md R10 to R22; R25: "There is no other state"), and one field of the
model's own, `draw`. -/
structure State where
  /-- `V[0]`..`V[15]` (R10). -/
  v : Vector Byte 16
  /-- `I` (R13). -/
  i : Word
  /-- `PC` (R14). -/
  pc : Word
  /-- `SP` (R15). -/
  sp : Byte
  /-- `STACK[0]`..`STACK[15]` (R16). -/
  stack : Vector Word 16
  /-- `DT` (R18). -/
  dt : Byte
  /-- `ST` (R19). -/
  st : Byte
  /-- `MEM` (R20). -/
  mem : Memory
  /-- `FB` (R21). -/
  fb : Frame
  /-- `KEY[0]`..`KEY[15]`, true for pressed (R22). -/
  key : Vector Bool 16
  /-- The MODEL's own: how many random bytes have been consumed; it picks the next free value `Config.rnd` (R24, log 1). -/
  draw : Nat
  deriving DecidableEq, Repr

/-- The undefined conditions U1 to U7 of 60_exceptions.md R112, which "a model reports" under these names, with the
instruction's address where an instruction reports one, and one condition of the model's own. The spec gives no next state
for any of them; stopping is SAFE (log 6, 7, 8, 11). -/
inductive Fault where
  /-- U1: raised by every step whose PC is above 0xFFE (30_encoding.md R46). Safe. -/
  | fetchOutOfRange (addr : Word)
  /-- U2: raised by DRW, LD B, LD [I], LD Vx,[I] on a data address above 0xFFF (20_memory.md R33, R34). Safe. -/
  | dataOutOfRange (addr : Word)
  /-- U3: raised by CALL when SP >= 16 (40_control_transfer.md R61). Safe. -/
  | stackOverflow (addr : Word)
  /-- U4: raised by RET when SP = 0 (40_control_transfer.md R62). Safe. -/
  | stackUnderflow (addr : Word)
  /-- U5: raised by DRW on a set sprite bit at rows 32 to 63 (48_draw.md R108). Safe. -/
  | fbRowOutOfRange (addr : Word)
  /-- U6: raised by SKP and SKNP when V[x] > 15 (41_conditional_skip.md R69, R70). Safe. -/
  | keyIndexOutOfRange (addr : Word)
  /-- U7: raised by the host's Load of more than 3584 bytes (70_reset_and_hazards.md R133). Safe. -/
  | loadOverflow
  /-- The model's own: raised by RET when SP > 16, so that STACK[SP - 1] does not exist; no run reaches such a state
  (10_state.md R17). DESIGN CHOICE, safe (log 11). -/
  | stackEntryMissing (addr : Word)
  deriving DecidableEq, Repr

/-- Why the model gives an instruction no meaning. Every instruction has one: no meaning answers with a refusal. -/
inductive Refusal where
  /-- An arm of `exec` without a meaning would answer with this (safe); there is none. -/
  | notModelled (mnemonic : String)
  deriving DecidableEq, Repr

/-- Every pixel off (10_state.md R21; 48_draw.md R103 `FbClear`). -/
def Frame.blank : Frame := Vector.replicate 32 (Vector.replicate 64 false)

/-- The state after `Reset` (10_state.md R28): all zero but PC = 0x200 and the glyph table, which is what unlisted memory
reads as. `draw` is the model's (DESIGN CHOICE 0, log 1). -/
def State.reset : State where
  v := Vector.replicate 16 0#8
  i := 0#16
  pc := Config.pcReset
  sp := 0#8
  stack := Vector.replicate 16 0#16
  dt := 0#8
  st := 0#8
  mem := []
  fb := Frame.blank
  key := Vector.replicate 16 false
  draw := 0

end Sys2Proof.Machine
end

