-- ==== Sys2Proof/Machine/Ops.lean ====
section
/-! DEFINITION. The named operations over memory, registers, stack, framebuffer, keypad and timers; fetching; the epilogue of a
step. The hardware has no exceptions, traps or interrupts (60_exceptions.md R110, R113, R115, R116): there is nothing to enter
or to return from; an undefined condition (R112) is a fault. -/

namespace Sys2Proof.Machine

/-! ## Memory (20_memory.md R30 to R34) -/

/-- What an address holds that nothing has written: the reset contents, zero but for the glyph table (20_memory.md R31, R32;
log 2, 12). -/
def Memory.initial (a : Nat) : Byte :=
  if Config.glyphBase ≤ a ∧ a < Config.glyphBase + Config.glyphSize then defaultGlyph.getD (a - Config.glyphBase) 0#8 else 0#8

/-- The first cell listed at `a`. -/
def Memory.find : Memory → Nat → Option Byte
  | [], _ => none
  | (b, w) :: m, a => if b = a then some w else Memory.find m a

/-- The byte at `a`, whatever `a` is. -/
def Memory.get (m : Memory) (a : Nat) : Byte := (m.find a).getD (Memory.initial a)

/-- A cell put before the first cell of a higher address. -/
def Memory.insert : Memory → Nat → Byte → Memory
  | [], a, w => [(a, w)]
  | (b, u) :: m, a, w => if a < b then (a, w) :: (b, u) :: m else (b, u) :: Memory.insert m a w

/-- Every cell but those at `a`. -/
def Memory.erase (m : Memory) (a : Nat) : Memory := m.filter (fun c => c.1 != a)

/-- The memory with the byte `w` at `a`, in canonical form: writing what an unlisted address reads as removes the entry. -/
def Memory.put (m : Memory) (a : Nat) (w : Byte) : Memory :=
  if w = Memory.initial a then m.erase a else (m.erase a).insert a w

/-- The canonical form: addresses strictly rising and inside the space, no entry equal to what an unlisted address reads as. -/
abbrev Memory.wf (m : Memory) : Prop :=
  m.Pairwise (fun c d => c.1 < d.1) ∧ ∀ c ∈ m, c.1 < Config.memSize ∧ c.2 ≠ Memory.initial c.1

/-- `MemRead(a, 1)` (20_memory.md R33): none where the array has no such byte. -/
def Memory.read (m : Memory) (a : Nat) : Option Byte := if a < Config.memSize then some (m.get a) else none

/-- `MemWrite(a, 1, w)` (20_memory.md R34): none where the array has no such byte. -/
def Memory.write (m : Memory) (a : Nat) (w : Byte) : Option Memory := if a < Config.memSize then some (m.put a w) else none

/-- `n` single-byte reads at ascending addresses (20_memory.md R37). -/
def Memory.readBytes (m : Memory) (a : Nat) : Nat → Option (List Byte)
  | 0 => some []
  | n + 1 =>
    match m.read a, m.readBytes (a + 1) n with
    | some b, some bs => some (b :: bs)
    | _, _ => none

/-- Single-byte writes at ascending addresses (20_memory.md R37). -/
def Memory.writeBytes (m : Memory) (a : Nat) : List Byte → Option Memory
  | [] => some m
  | b :: bs =>
    match m.write a b with
    | some m' => m'.writeBytes (a + 1) bs
    | none => none

/-! ## Registers (10_state.md R10) -/

/-- Reads `V[x]`: every index is a register, none is hardwired (R10). -/
def State.getV (s : State) (x : Nibble) : Byte := s.v[x.toNat]'(x.isLt)

/-- `V[x] <- b` (R10). -/
def State.setV (s : State) (x : Nibble) (b : Byte) : State := { s with v := s.v.set x.toNat b x.isLt }

/-- `V[k] <- b` for each byte of the list, from `V[k]` up, ascending (45_memory_index.md R94). -/
def State.setVFrom (s : State) (k : Nat) : List Byte → State
  | [] => s
  | b :: bs => (s.setV (BitVec.ofNat 4 k) b).setVFrom (k + 1) bs

/-! ## Call stack (10_state.md R15, R16) -/

/-- `STACK[k]`, none where there is no such entry. -/
def State.stackEntry (s : State) (k : Nat) : Option Word := s.stack[k]?

/-- `STACK[k] <- w`; no change where there is no such entry. -/
def State.setStackEntry (s : State) (k : Nat) (w : Word) : State := { s with stack := s.stack.setIfInBounds k w }

/-! ## Keypad (10_state.md R22) -/

/-- `KEY[k]`, none where there is no such key. -/
def State.keyAt (s : State) (k : Nat) : Option Bool := s.key[k]?

/-- The keys pressed, in ascending order. -/
def State.pressedKeys (s : State) : List Nat := (List.range 16).filter (fun k => s.keyAt k == some true)

/-- The lowest-numbered pressed key (47_key_wait.md R100). -/
def State.lowestKey (s : State) : Option Nat := s.pressedKeys.head?

/-! ## Framebuffer (48_draw.md R103) -/

/-- `FbRead(x, y)` (R103). -/
def Frame.read (f : Frame) (y : Fin 32) (x : Fin 64) : Bool := (f[y.val])[x.val]

/-- `FbFlip(x, y)` (R103). -/
def Frame.flip (f : Frame) (y : Fin 32) (x : Fin 64) : Frame := f.set y.val ((f[y.val]).set x.val (!f.read y x))

/-! ## The parts of a step (30_encoding.md R45 to R47) -/

/-- The address of the instruction being executed: PC was advanced by 2 before it executes (R47). -/
def State.instrAddr (s : State) : Word := s.pc - 2#16

/-- `PC <- (PC + 2) mod 65536` (R47). -/
def State.advancePc (s : State) : State := { s with pc := s.pc + 2#16 }

/-- `IR <- MemRead(PC, 2)`, undefined U1 if PC > 0xFFE (R46; 20_memory.md R33). -/
def fetch (s : State) : Except Fault Word :=
  match s.mem.readBytes s.pc.toNat 2 with
  | some [hi, lo] => .ok (composeWord hi lo)
  | _ => .error (.fetchOutOfRange s.pc)

/-- A counter that is not 0 goes down by one; 0 is the floor (60_exceptions.md R118, R119). -/
def countDown (c : Byte) : Byte := if c = 0#8 then 0#8 else c - 1#8

/-- The timer epilogue (60_exceptions.md R118). -/
def State.epilogue (s : State) : State := { s with dt := countDown s.dt, st := countDown s.st }

/-- The epilogue after an instruction that completed; an undefined condition makes the whole step undefined (30_encoding.md
R45). -/
def thenEpilogue : Host.Outcome State Fault Refusal → Host.Outcome State Fault Refusal
  | .next t => .next t.epilogue
  | .fault f => .fault f
  | .refused r => .refused r

/-- The outcome of a meaning that either completes or meets an undefined condition (00_scope.md R8). -/
def outcome : Except Fault State → Host.Outcome State Fault Refusal
  | .ok s => .next s
  | .error f => .fault f

/-- Data read (20_memory.md R33), undefined U2 outside the array. -/
def State.readData (s : State) (a : Nat) : Except Fault Byte :=
  match s.mem.read a with
  | some b => .ok b
  | none => .error (.dataOutOfRange s.instrAddr)

/-- Data reads at ascending addresses (20_memory.md R37), undefined U2 if one of them is outside the array. -/
def State.readBlock (s : State) (a n : Nat) : Except Fault (List Byte) :=
  match s.mem.readBytes a n with
  | some bs => .ok bs
  | none => .error (.dataOutOfRange s.instrAddr)

/-- Data writes at ascending addresses (20_memory.md R34, R37), undefined U2 as a whole if one of them is outside the array. -/
def State.writeBlock (s : State) (a : Nat) (bs : List Byte) : Except Fault State :=
  match s.mem.writeBytes a bs with
  | some m => .ok { s with mem := m }
  | none => .error (.dataOutOfRange s.instrAddr)

/-- `PC <- (PC + 2) mod 65536` when the condition holds: a skip (41_conditional_skip.md R71). -/
def State.skipIf (s : State) (c : Bool) : State := if c then { s with pc := s.pc + 2#16 } else s

/-! ## Placing one instruction where the next step fetches it -/

/-- Where `placeWord` puts its word: at PC, or at the program base for a PC at which no fetch is defined (log 13). -/
def State.placeAddr (s : State) : Word := if s.pc.toNat ≤ 0xFFE then s.pc else Config.pcReset

/-- The word stored, high byte first, at `placeAddr`, with PC there (log 13). -/
def State.placeWord (s : State) (w : Word) : State :=
  { s with
    pc := s.placeAddr
    mem := (s.mem.put s.placeAddr.toNat (w.extractLsb' 8 8)).put (s.placeAddr.toNat + 1) (w.extractLsb' 0 8) }

end Sys2Proof.Machine
end

