-- ==== Sys2Proof/Machine/Operands.lean ====
section
/-! DEFINITION. Every operand form: register, immediate, 12-bit address, memory through `I` plus a small offset, block of
registers, decimal digits, glyph address (30_encoding.md R50; 45_memory_index.md). -/

namespace Sys2Proof.Machine

/-- `zext_16(nnn)`: a 12-bit address used as it stands (30_encoding.md R50). -/
def zextAddr (nnn : Addr12) : Word := nnn.setWidth 16

/-- `zext_16(b)` (30_encoding.md R50). -/
def zextByte (b : Byte) : Word := b.setWidth 16

/-- The only addressing mode: the mathematical sum `I + offset`, not reduced (20_memory.md section 2; 45_memory_index.md). -/
def State.dataAddr (s : State) (offset : Nat) : Nat := s.i.toNat + offset

/-- `V[0]` to `V[x]` inclusive, ascending: the implicit operands of the block transfers (10_state.md R12). -/
def State.regsUpTo (s : State) (x : Nibble) : List Byte :=
  (List.range (x.toNat + 1)).map (fun k => s.getV (BitVec.ofNat 4 k))

/-- Hundreds, tens, ones (45_memory_index.md R92). -/
def decimalDigits (b : Byte) : List Byte :=
  [BitVec.ofNat 8 (b.toNat / 100), BitVec.ofNat 8 (b.toNat / 10 % 10), BitVec.ofNat 8 (b.toNat % 10)]

/-- `0x0050 + 5 * zext_16(b)`, the whole byte, no masking (45_memory_index.md R91; log 15). -/
def glyphAddr (b : Byte) : Word := BitVec.ofNat 16 (Config.glyphBase + 5 * b.toNat)

end Sys2Proof.Machine
end

