-- ==== Sys2Proof/Machine/Flags.lean ====
section
/-! DEFINITION. The flag computations: carry, strictly-greater ("not borrow"), bit shifted out, and how a flag reaches `VF`
(10_state.md R11; 43_alu.md R84, R85). -/

namespace Sys2Proof.Machine

/-- `VF`, register 15 (10_state.md R11). -/
abbrev regF : Nibble := 0xF#4

/-- A flag as the byte `VF` receives: 1 or 0. -/
def flagByte (c : Bool) : Byte := if c then 1#8 else 0#8

/-- The carry of an addition: the sum exceeds 255 (43_alu.md R79, R84). -/
def carry (a b : Byte) : Bool := a.toNat + b.toNat > 255

/-- The flag of a subtraction: the minuend is strictly greater (43_alu.md R80, R82, R84). -/
def strictlyGreater (minuend subtrahend : Byte) : Bool := minuend.toNat > subtrahend.toNat

/-- The bit a right shift takes out of the low end (43_alu.md R81). -/
def lowBit (a : Byte) : Bool := a.toNat % 2 = 1

/-- The bit a left shift takes out of the high end (43_alu.md R83). -/
def highBit (a : Byte) : Bool := a.toNat ≥ 128

/-- The result to `V[x]`, and last the flag to `VF`: with x = 15 the flag is what stays (43_alu.md R85; log 9). -/
def State.setVAndFlag (s : State) (x : Nibble) (result : Byte) (flag : Bool) : State :=
  (s.setV x result).setV regF (flagByte flag)

end Sys2Proof.Machine
end

