-- ==== Sys2Proof/Machine/Alu.lean ====
section
/-! DEFINITION. Bitwise and arithmetic on register pairs (43_alu.md R76 to R86): operands are read first, then the result is
written to `V[x]`, then the flag to `VF` (R85; log 9). -/

namespace Sys2Proof.Machine

/-- `OR Vx, Vy` (R76): `VF` is not written as a flag (R86; log 16). -/
def execOr (x y : Nibble) (s : State) : Host.Outcome State Fault Refusal := .next (s.setV x (s.getV x ||| s.getV y))

/-- `AND Vx, Vy` (R77): `VF` is not written as a flag (R86; log 16). -/
def execAnd (x y : Nibble) (s : State) : Host.Outcome State Fault Refusal := .next (s.setV x (s.getV x &&& s.getV y))

/-- `XOR Vx, Vy` (R78): `VF` is not written as a flag (R86; log 16). -/
def execXor (x y : Nibble) (s : State) : Host.Outcome State Fault Refusal := .next (s.setV x (s.getV x ^^^ s.getV y))

/-- `ADD Vx, Vy` (R79). -/
def execAdd (x y : Nibble) (s : State) : Host.Outcome State Fault Refusal :=
  .next (s.setVAndFlag x (s.getV x + s.getV y) (carry (s.getV x) (s.getV y)))

/-- `SUB Vx, Vy`, X − Y (R80). -/
def execSub (x y : Nibble) (s : State) : Host.Outcome State Fault Refusal :=
  .next (s.setVAndFlag x (s.getV x - s.getV y) (strictlyGreater (s.getV x) (s.getV y)))

/-- `SHR Vx` (R81): the source is `V[x]` (log 16). -/
def execShr (x : Nibble) (s : State) : Host.Outcome State Fault Refusal :=
  .next (s.setVAndFlag x (s.getV x >>> 1) (lowBit (s.getV x)))

/-- `SUBN Vx, Vy`, Y − X (R82). -/
def execSubn (x y : Nibble) (s : State) : Host.Outcome State Fault Refusal :=
  .next (s.setVAndFlag x (s.getV y - s.getV x) (strictlyGreater (s.getV y) (s.getV x)))

/-- `SHL Vx` (R83): the source is `V[x]` (log 16). -/
def execShl (x : Nibble) (s : State) : Host.Outcome State Fault Refusal :=
  .next (s.setVAndFlag x (s.getV x <<< 1) (highBit (s.getV x)))

end Sys2Proof.Machine
end

