-- ==== Sys2Proof/Machine/Control.lean ====
section
/-! DEFINITION. Control transfer (40_control_transfer.md R60 to R64) and the no-op of unassigned slots (30_encoding.md R56).
`PC` is already the address of the instruction plus 2 (30_encoding.md R47). -/

namespace Sys2Proof.Machine

/-- `JP nnn` (R60). -/
def execJp (nnn : Addr12) (s : State) : Host.Outcome State Fault Refusal :=
  .next { s with pc := zextAddr nnn }

/-- `CALL nnn` (R61): write at `SP`, then increment (log 5); undefined U3 when `SP >= 16`. -/
def execCall (nnn : Addr12) (s : State) : Host.Outcome State Fault Refusal :=
  if Config.stackDepth ≤ s.sp.toNat then .fault (.stackOverflow s.instrAddr)
  else .next { s.setStackEntry s.sp.toNat s.pc with sp := s.sp + 1#8, pc := zextAddr nnn }

/-- `RET` (R62): decrement, then read at the new `SP` (log 5); undefined U4 when `SP = 0`. An `SP` above 16, which no run
reaches, has no entry to read (log 11). -/
def execRet (s : State) : Host.Outcome State Fault Refusal :=
  if s.sp = 0#8 then .fault (.stackUnderflow s.instrAddr)
  else
    match s.stackEntry (s.sp.toNat - 1) with
    | some target => .next { s with sp := s.sp - 1#8, pc := target }
    | none => .fault (.stackEntryMissing s.instrAddr)

/-- `JP V0, nnn` (R63): the sum is not reduced to 12 bits (log 14). -/
def execJpV0 (nnn : Addr12) (s : State) : Host.Outcome State Fault Refusal :=
  .next { s with pc := zextAddr nnn + zextByte (s.getV 0#4) }

/-- The no-op: "changes no state at all" (30_encoding.md R56). -/
def execNop (s : State) : Host.Outcome State Fault Refusal := .next s

end Sys2Proof.Machine
end

