-- ==== Sys2Proof/Machine/Draw.lean ====
section
/-! DEFINITION. Screen clear and sprite draw (48_draw.md R102 to R109): the scan of R104, row by row and column by column. -/

namespace Sys2Proof.Machine

/-- What the scan carries: the framebuffer and the collision detector's one bit (R106). -/
structure Scan where
  fb : Frame
  hit : Bool
  deriving DecidableEq, Repr

/-- One set sprite bit (R104): undefined U5 on rows 32 to 63 (R108; log 7). -/
def Scan.pixel (sc : Scan) (fault : Fault) (px py : Nat) : Except Fault Scan :=
  if h : py < 32 then
    .ok { fb := sc.fb.flip ⟨py, h⟩ (Fin.ofNat 64 px), hit := sc.hit || sc.fb.read ⟨py, h⟩ (Fin.ofNat 64 px) }
  else .error fault

/-- Column `c` of a sprite byte is its bit 7 − c (R107; log 4). -/
def spriteBit (b : Byte) (c : Nat) : Bool := b.getLsbD (7 - c)

/-- The columns of one sprite row, in the order of the list: the destination is `(ox + c) mod 64`, `(oy + r) mod 64` (R105). -/
def Scan.columns (sc : Scan) (fault : Fault) (b : Byte) (ox oyr : Nat) : List Nat → Except Fault Scan
  | [] => .ok sc
  | c :: cs =>
    if spriteBit b c then
      match sc.pixel fault ((ox + c) % Config.fbCols) (oyr % Config.fbCols) with
      | .ok sc' => sc'.columns fault b ox oyr cs
      | .error f => .error f
    else sc.columns fault b ox oyr cs

/-- The sprite rows of the list, in order: row `r`'s byte is read (undefined U2 above 0xFFF) before its bits are drawn
(R104; 60_exceptions.md R114). -/
def Scan.rows (sc : Scan) (s : State) (ox oy : Nat) : List Nat → Except Fault Scan
  | [] => .ok sc
  | r :: rs =>
    match s.readData (s.dataAddr r) with
    | .error f => .error f
    | .ok b =>
      match sc.columns (.fbRowOutOfRange s.instrAddr) b ox (oy + r) (List.range 8) with
      | .ok sc' => sc'.rows s ox oy rs
      | .error f => .error f

/-- `CLS` (R102): `VF` is not written. -/
def execCls (s : State) : Host.Outcome State Fault Refusal := .next { s with fb := Frame.blank }

/-- `DRW Vx, Vy, n` (R104): the origin and `I` are read before `VF` changes (R107; log 10); `VF` ends as the collision. -/
def execDrw (x y n : Nibble) (s : State) : Host.Outcome State Fault Refusal :=
  match Scan.rows { fb := s.fb, hit := false } s (s.getV x).toNat (s.getV y).toNat (List.range n.toNat) with
  | .ok sc => .next ({ s with fb := sc.fb }.setV regF (flagByte sc.hit))
  | .error f => .fault f

end Sys2Proof.Machine
end

