-- ==== Sys2Proof/Machine/KeyWait.lean ====
section
/-! DEFINITION. The blocking input read (47_key_wait.md R100, R101): an ordinary step that rewinds `PC` when no key is pressed. -/

namespace Sys2Proof.Machine

/-- `LD Vx, K` (R100). -/
def execLdVxK (x : Nibble) (s : State) : Host.Outcome State Fault Refusal :=
  match s.lowestKey with
  | some k => .next (s.setV x (BitVec.ofNat 8 k))
  | none => .next { s with pc := s.pc - 2#16 }

end Sys2Proof.Machine
end

