-- ==== Sys2Proof/Machine/MemoryIndex.lean ====
section
/-! DEFINITION. Memory and index (45_memory_index.md R89 to R95). The block transfers and `LD B` do not change `I` (R13; log 15). -/

namespace Sys2Proof.Machine

/-- `LD I, nnn` (R89). -/
def execLdI (nnn : Addr12) (s : State) : Host.Outcome State Fault Refusal := .next { s with i := zextAddr nnn }

/-- `ADD I, Vx` (R90): 16-bit wrap, no flag (log 15). -/
def execAddI (x : Nibble) (s : State) : Host.Outcome State Fault Refusal :=
  .next { s with i := s.i + zextByte (s.getV x) }

/-- `LD F, Vx` (R91). -/
def execLdF (x : Nibble) (s : State) : Host.Outcome State Fault Refusal := .next { s with i := glyphAddr (s.getV x) }

/-- `LD B, Vx` (R92): undefined U2 as a whole if `I + 2 > 0xFFF`. -/
def execLdB (x : Nibble) (s : State) : Host.Outcome State Fault Refusal :=
  outcome (s.writeBlock (s.dataAddr 0) (decimalDigits (s.getV x)))

/-- `LD [I], Vx` (R93): undefined U2 if `I + x > 0xFFF`. -/
def execStoreRegs (x : Nibble) (s : State) : Host.Outcome State Fault Refusal :=
  outcome (s.writeBlock (s.dataAddr 0) (s.regsUpTo x))

/-- `LD Vx, [I]` (R94): undefined U2 if `I + x > 0xFFF`. -/
def execLoadRegs (x : Nibble) (s : State) : Host.Outcome State Fault Refusal :=
  match s.readBlock (s.dataAddr 0) (x.toNat + 1) with
  | .ok bs => .next (s.setVFrom 0 bs)
  | .error f => .fault f

end Sys2Proof.Machine
end

