-- ==== Sys2Proof/Machine/Random.lean ====
section
/-! DEFINITION. Randomization (44_random.md R87, R88). -/

namespace Sys2Proof.Machine

/-- `RND Vx, kk` (R87): the random byte is the free value `Config.rnd` at the draw counter, which the instruction advances, so
that the next `RND` sees another free value (log 1). -/
def execRnd (x : Nibble) (kk : Byte) (s : State) : Host.Outcome State Fault Refusal :=
  .next { s.setV x (Config.rnd s.draw &&& kk) with draw := s.draw + 1 }

end Sys2Proof.Machine
end

