-- ==== Sys2Proof/Machine/Skip.lean ====
section
/-! DEFINITION. Conditional skips (41_conditional_skip.md R65 to R71): the only state written is `PC`. -/

namespace Sys2Proof.Machine

/-- `SE Vx, kk` (R65). -/
def execSeImm (x : Nibble) (kk : Byte) (s : State) : Host.Outcome State Fault Refusal :=
  .next (s.skipIf (s.getV x == kk))

/-- `SNE Vx, kk` (R66). -/
def execSneImm (x : Nibble) (kk : Byte) (s : State) : Host.Outcome State Fault Refusal :=
  .next (s.skipIf (s.getV x != kk))

/-- `SE Vx, Vy` (R67). -/
def execSeReg (x y : Nibble) (s : State) : Host.Outcome State Fault Refusal :=
  .next (s.skipIf (s.getV x == s.getV y))

/-- `SNE Vx, Vy` (R68). -/
def execSneReg (x y : Nibble) (s : State) : Host.Outcome State Fault Refusal :=
  .next (s.skipIf (s.getV x != s.getV y))

/-- `SKP Vx` (R69): undefined U6 when `V[x] > 15`, not masked (log 8). -/
def execSkp (x : Nibble) (s : State) : Host.Outcome State Fault Refusal :=
  match s.keyAt (s.getV x).toNat with
  | some pressed => .next (s.skipIf pressed)
  | none => .fault (.keyIndexOutOfRange s.instrAddr)

/-- `SKNP Vx` (R70): undefined U6 when `V[x] > 15`, not masked (log 8). -/
def execSknp (x : Nibble) (s : State) : Host.Outcome State Fault Refusal :=
  match s.keyAt (s.getV x).toNat with
  | some pressed => .next (s.skipIf (!pressed))
  | none => .fault (.keyIndexOutOfRange s.instrAddr)

end Sys2Proof.Machine
end

