-- ==== Sys2Proof/Machine/Timer.lean ====
section
/-! DEFINITION. Timers (46_timers.md R96 to R99). The decrement is the step's epilogue, not theirs (60_exceptions.md R118). -/

namespace Sys2Proof.Machine

/-- `LD Vx, DT` (R96). -/
def execLdVxDt (x : Nibble) (s : State) : Host.Outcome State Fault Refusal := .next (s.setV x s.dt)

/-- `LD DT, Vx` (R97). -/
def execLdDtVx (x : Nibble) (s : State) : Host.Outcome State Fault Refusal := .next { s with dt := s.getV x }

/-- `LD ST, Vx` (R98). -/
def execLdStVx (x : Nibble) (s : State) : Host.Outcome State Fault Refusal := .next { s with st := s.getV x }

end Sys2Proof.Machine
end

