-- ==== Sys2Proof/Machine/Transfer.lean ====
section
/-! DEFINITION. Immediate and register transfer (42_transfer_immediate.md R72 to R75): the only state written is `V[x]`. -/

namespace Sys2Proof.Machine

/-- `LD Vx, kk` (R72). -/
def execLdImm (x : Nibble) (kk : Byte) (s : State) : Host.Outcome State Fault Refusal := .next (s.setV x kk)

/-- `LD Vx, Vy` (R73). -/
def execLdReg (x y : Nibble) (s : State) : Host.Outcome State Fault Refusal := .next (s.setV x (s.getV y))

/-- `ADD Vx, kk` (R74): 8-bit wraparound, no flag effect. -/
def execAddImm (x : Nibble) (kk : Byte) (s : State) : Host.Outcome State Fault Refusal :=
  .next (s.setV x (s.getV x + kk))

end Sys2Proof.Machine
end

