-- ==== Sys2Proof/Machine/Step.lean ====
section
/-! DEFINITION. `Step(rnd)` (30_encoding.md R45): fetch, advance PC by 2, execute, timer epilogue. -/

namespace Sys2Proof.Machine

/-- One step (30_encoding.md R45). -/
def step (s : State) : Host.Outcome State Fault Refusal :=
  match fetch s with
  | .ok w => thenEpilogue (exec (decodeWord w) s.advancePc)
  | .error f => .fault f

/-- The state with the table's instruction `w` where the next step fetches it (log 13). -/
def State.withFetchWord (s : State) (nbits w : Nat) : State := s.placeWord (tableWord nbits w)

end Sys2Proof.Machine
end

