-- ==== Sys2Proof/Machine/HostOps.lean ====
section
/-! DEFINITION. What the host can do between steps (10_state.md R26): Reset, Load, SetKey, Step, and observe `FB`, `ST`, `DT`;
runs of such operations (70_reset_and_hazards.md R137); the reset state for any glyph table (20_memory.md R32). Log 17. -/

namespace Sys2Proof.Machine

/-- `Reset` (70_reset_and_hazards.md R130): every piece of the spec's state to its reset value. The model's own draw counter is
kept, so that no random byte is ever seen twice (log 1). -/
def hostReset (s : State) : State := { State.reset with draw := s.draw }

/-- `Load(image)` (R132): the image verbatim from 0x200 up, nothing else changed; more than 3584 bytes is undefined U7 as a
whole (R133). -/
def hostLoad (image : List Byte) (s : State) : Host.Outcome State Fault Refusal :=
  match s.mem.writeBytes Config.progBase image with
  | some m => .next { s with mem := m }
  | none => .fault .loadOverflow

/-- `SetKey(k, b)` (10_state.md R26). -/
def hostSetKey (k : Fin 16) (b : Bool) (s : State) : State := { s with key := s.key.set k.val b }

/-- The host reads a pixel between steps (10_state.md R26; 70_reset_and_hazards.md R139). -/
def observePixel (s : State) (y : Fin 32) (x : Fin 64) : Bool := s.fb.read y x

/-- The host reads `ST` (10_state.md R26). -/
def observeSt (s : State) : Byte := s.st

/-- The host reads `DT` (10_state.md R26). -/
def observeDt (s : State) : Byte := s.dt

/-- The host's operations (10_state.md R26). -/
inductive HostOp where
  | reset
  | load (image : List Byte)
  | setKey (k : Fin 16) (b : Bool)
  | step
  deriving DecidableEq, Repr

/-- One operation of the host, atomic (10_state.md R26). -/
def applyHostOp (op : HostOp) (s : State) : Host.Outcome State Fault Refusal :=
  match op with
  | .reset => .next (hostReset s)
  | .load image => hostLoad image s
  | .setKey k b => .next (hostSetKey k b s)
  | .step => step s

/-- A run: operations one after another, stopping at the first undefined condition (70_reset_and_hazards.md R137). -/
def runHostOps : List HostOp → State → Host.Outcome State Fault Refusal
  | [], s => .next s
  | op :: ops, s =>
    match applyHostOp op s with
    | .next t => runHostOps ops t
    | .fault f => .fault f
    | .refused r => .refused r

/-- Cells put one after another from `a` up. -/
def Memory.putBytes (m : Memory) (a : Nat) : List Byte → Memory
  | [] => m
  | b :: bs => (m.put a b).putBytes (a + 1) bs

/-- The reset state of a machine whose glyph table is `glyph` (20_memory.md R32: "A model takes `GLYPH` as an argument"): a claim
that quantifies over `glyph` rests on no glyph byte. -/
def State.resetWithGlyph (glyph : Vector Byte 80) : State :=
  { State.reset with mem := Memory.putBytes [] Config.glyphBase glyph.toList }

end Sys2Proof.Machine
end

