-- ==== Sys2Proof/Safety.lean ====
section
/-! DEFINITION. The terms statements are made in: the parts of the machine one can look at, which parts a change is confined to,
which parts each instruction may write, when a step is undefined, the invariant of the machine. -/

namespace Sys2Proof.Machine

/-- The parts of the state, one for each piece of 10_state.md section 1, arrays cell by cell, and the model's own counter. -/
inductive Part where
  | v (x : Nibble)
  | i
  | pc
  | sp
  | stack (k : Fin 16)
  | dt
  | st
  | mem (a : Nat)
  | pixel (y : Fin 32) (x : Fin 64)
  | key (k : Fin 16)
  | draw
  deriving DecidableEq, Repr

/-- The value of one part, as a number; none for a memory address that does not exist (20_memory.md R33). -/
def State.look (s : State) : Part → Option Nat
  | .v x => some (s.getV x).toNat
  | .i => some s.i.toNat
  | .pc => some s.pc.toNat
  | .sp => some s.sp.toNat
  | .stack k => some (s.stack[k.val]).toNat
  | .dt => some s.dt.toNat
  | .st => some s.st.toNat
  | .mem a => (s.mem.read a).map BitVec.toNat
  | .pixel y x => some (s.fb.read y x).toNat
  | .key k => some (s.key[k.val]).toNat
  | .draw => some s.draw

/-- From `s` to `t`, every part outside `W` is unchanged: every register, every special register, every stack entry, every pixel,
every key, and every byte of memory, read through `Memory.read`. -/
def ChangesOnly (W : Part → Prop) (s t : State) : Prop := ∀ p, ¬ W p → t.look p = s.look p

/-- The same change made to the next state of an outcome. -/
def mapNext (f : State → State) : Host.Outcome State Fault Refusal → Host.Outcome State Fault Refusal
  | .next t => .next (f t)
  | .fault r => .fault r
  | .refused r => .refused r

/-- The pixel in row `py`, column `px` lies under a set bit of the sprite that `DRW Vx, Vy, n` draws (48_draw.md R104, R105; bit
7 − c is column c, R107, log 4; the origin is read before VF is reset, log 10): row `r` of the sprite is the byte at `I + r`. -/
def underSprite (s : State) (x y n : Nibble) (py : Fin 32) (px : Fin 64) : Prop :=
  ∃ r c : Nat, r < n.toNat ∧ c < 8 ∧
    (∃ b, s.mem.read (s.i.toNat + r) = some b ∧ b.getLsbD (7 - c) = true) ∧
    ((s.getV x).toNat + c) % 64 = px.val ∧ ((s.getV y).toNat + r) % 64 = py.val

/-- Sprite row `r` is drawn without an undefined condition: its byte exists and, unless it is zero, its row is one of the 32
(48_draw.md R108). -/
def rowDefined (s : State) (y : Nibble) (r : Nat) : Prop :=
  ∃ b, s.mem.read (s.i.toNat + r) = some b ∧ (b ≠ 0#8 → ((s.getV y).toNat + r) % 64 ≤ 31)

/-- The parts an instruction may write while it executes, `PC` having been advanced already (10_state.md section 1, R11, R13, R16,
R21; 40_control_transfer.md R60 to R63; 41_conditional_skip.md R71; 42_transfer_immediate.md R75; 43_alu.md R85, R86; 44_random.md R87;
45_memory_index.md R89 to R94; 46_timers.md R99; 47_key_wait.md R100; 48_draw.md R102 to R107). Decisions: log 4, 10 (draw), 5 (call),
15 (I kept), 16 (no flag); `draw` is the model's own, log 1. -/
def writes : Instr → State → Part → Prop
  | .cls _, _ => fun p => ∃ y x, p = .pixel y x
  | .ret _, _ => fun p => p = .sp ∨ p = .pc
  | .jp _, _ => fun p => p = .pc
  | .call _, s => fun p => (∃ k, k.val = s.sp.toNat ∧ p = .stack k) ∨ p = .sp ∨ p = .pc
  | .seImm _ _, _ => fun p => p = .pc
  | .sneImm _ _, _ => fun p => p = .pc
  | .seReg _ _ _, _ => fun p => p = .pc
  | .ldImm x _, _ => fun p => p = .v x
  | .addImm x _, _ => fun p => p = .v x
  | .ldReg x _, _ => fun p => p = .v x
  | .orReg x _, _ => fun p => p = .v x
  | .andReg x _, _ => fun p => p = .v x
  | .xorReg x _, _ => fun p => p = .v x
  | .addReg x _, _ => fun p => p = .v x ∨ p = .v regF
  | .subReg x _, _ => fun p => p = .v x ∨ p = .v regF
  | .shr x _, _ => fun p => p = .v x ∨ p = .v regF
  | .subn x _, _ => fun p => p = .v x ∨ p = .v regF
  | .shl x _, _ => fun p => p = .v x ∨ p = .v regF
  | .sneReg _ _ _, _ => fun p => p = .pc
  | .ldI _, _ => fun p => p = .i
  | .jpV0 _, _ => fun p => p = .pc
  | .rnd x _, _ => fun p => p = .v x ∨ p = .draw
  | .drw x y n, s => fun p => p = .v regF ∨ ∃ py px, underSprite s x y n py px ∧ p = .pixel py px
  | .sknp _ _, _ => fun p => p = .pc
  | .skp _ _, _ => fun p => p = .pc
  | .ldVxDt x, _ => fun p => p = .v x
  | .ldVxK x, s => fun p => ((∃ k : Fin 16, s.key[k.val] = true) ∧ p = .v x) ∨ ((∀ k : Fin 16, s.key[k.val] = false) ∧ p = .pc)
  | .ldDtVx _, _ => fun p => p = .dt
  | .ldStVx _, _ => fun p => p = .st
  | .addI _, _ => fun p => p = .i
  | .ldF _, _ => fun p => p = .i
  | .ldB _, s => fun p => ∃ k, k < 3 ∧ p = .mem (s.i.toNat + k)
  | .storeRegs x, s => fun p => ∃ k, k ≤ x.toNat ∧ p = .mem (s.i.toNat + k)
  | .loadRegs x, _ => fun p => ∃ k : Nibble, k.toNat ≤ x.toNat ∧ p = .v k
  | .nop _, _ => fun _ => False

/-- The undefined conditions of 60_exceptions.md R112 an instruction meets while it executes, in the order of R114, and the
model's own one for an `SP` above 16 (log 11). -/
def UndefinedAt (s : State) : Instr → Fault → Prop
  | .ret _, f => (s.sp.toNat = 0 ∧ f = .stackUnderflow (s.pc - 2#16)) ∨ (16 < s.sp.toNat ∧ f = .stackEntryMissing (s.pc - 2#16))
  | .call _, f => 16 ≤ s.sp.toNat ∧ f = .stackOverflow (s.pc - 2#16)
  | .sknp x _, f => 15 < (s.getV x).toNat ∧ f = .keyIndexOutOfRange (s.pc - 2#16)
  | .skp x _, f => 15 < (s.getV x).toNat ∧ f = .keyIndexOutOfRange (s.pc - 2#16)
  | .ldB _, f => 0xFFF < s.i.toNat + 2 ∧ f = .dataOutOfRange (s.pc - 2#16)
  | .storeRegs x, f => 0xFFF < s.i.toNat + x.toNat ∧ f = .dataOutOfRange (s.pc - 2#16)
  | .loadRegs x, f => 0xFFF < s.i.toNat + x.toNat ∧ f = .dataOutOfRange (s.pc - 2#16)
  | .drw _ y n, f => ∃ r, r < n.toNat ∧ (∀ q, q < r → rowDefined s y q) ∧
      ((0xFFF < s.i.toNat + r ∧ f = .dataOutOfRange (s.pc - 2#16)) ∨
        (∃ b, s.mem.read (s.i.toNat + r) = some b ∧ b ≠ 0#8 ∧ 31 < ((s.getV y).toNat + r) % 64 ∧
          f = .fbRowOutOfRange (s.pc - 2#16)))
  | .cls _, _ => False
  | .jp _, _ => False
  | .seImm _ _, _ => False
  | .sneImm _ _, _ => False
  | .seReg _ _ _, _ => False
  | .ldImm _ _, _ => False
  | .addImm _ _, _ => False
  | .ldReg _ _, _ => False
  | .orReg _ _, _ => False
  | .andReg _ _, _ => False
  | .xorReg _ _, _ => False
  | .addReg _ _, _ => False
  | .subReg _ _, _ => False
  | .shr _ _, _ => False
  | .subn _ _, _ => False
  | .shl _ _, _ => False
  | .sneReg _ _ _, _ => False
  | .ldI _, _ => False
  | .jpV0 _, _ => False
  | .rnd _ _, _ => False
  | .ldVxDt _, _ => False
  | .ldVxK _, _ => False
  | .ldDtVx _, _ => False
  | .ldStVx _, _ => False
  | .addI _, _ => False
  | .ldF _, _ => False
  | .nop _, _ => False

/-- A run has gone wrong exactly when a step is undefined (60_exceptions.md R126). -/
def GoesWrong (s : State) : Prop := ∃ f, step s = .fault f

/-- What every step keeps: memory in its canonical form; at most 16 return addresses (10_state.md R17); no stack entry above
0x1000, the largest value a call pushes (40_control_transfer.md R62); PC never above 0x10FE, the largest target there is (R63),
so that it never wraps (10_state.md R14). -/
structure Inv (s : State) : Prop where
  mem_wf : s.mem.wf
  sp_le : s.sp.toNat ≤ 16
  stack_le : ∀ k : Fin 16, (s.stack[k.val]).toNat ≤ 0x1000
  pc_le : s.pc.toNat ≤ 0x10FE

end Sys2Proof.Machine
end

