-- ==== Sys2Proof/Certificates/Slice0/Obligations.lean ====
section
/-! DEFINITION. The statements for the provers. Each docstring names the rules of spec/ it formalises. `s` is a state in which
PC has already been advanced when a statement speaks of `exec` (30_encoding.md R47), and the state before the step when it
speaks of `step`. "undefined U<k>" of the spec is the fault of that name (00_scope.md R7; log 6). A frame is a `ChangesOnly`:
every part not listed, every byte of memory among them, is as before. -/

open Sys2Proof Sys2Proof.Machine

/-! ## Encoding -/

/-- For every well-formed instruction, decoding its bytes gives it back, with every operand at every value, and leaves the bytes
after it (30_encoding.md R46 to R58; the opcode numbers are the spec's decision D9, log 3). That an instruction carries its
ignored bits, and a no-op its word, is the model's choice (log 19). -/
def Obligations.DecodeOfEncodeIsTheInstruction : Prop :=
  ∀ (i : Instr) (rest : List Byte), i.wellFormed = true → decode (encode i ++ rest) = .ok (i, rest)

/-- Every one of the 65536 words decodes to one well-formed instruction (30_encoding.md R57, R58; opcode numbers D9, log 3). That
its encoding is the word again is the model's choice, not the spec's: `Instr` keeps the ignored bits and the no-op's word as
fields (DESIGN CHOICE, log 19), where the spec has one canonical word (00E0 for 0x0120, R57). -/
def Obligations.EncodeOfDecodeIsTheWord : Prop :=
  ∀ w : Word, (decodeWord w).wellFormed = true ∧ encodeWord (decodeWord w) = w

/-- Words the spec writes out, as the bytes stand in memory (30_encoding.md R57; examples of R60 to R104; numbers D9, log 3). -/
def Obligations.SpecWordsDecode : Prop :=
  decode [0x00#8, 0xE0#8] = .ok (.cls 0x0E#8, []) ∧ decode [0x00#8, 0x00#8] = .ok (.cls 0x00#8, []) ∧
  decode [0x01#8, 0x2E#8] = .ok (.ret 0x12#8, []) ∧ decode [0x12#8, 0x00#8] = .ok (.jp 0x200#12, []) ∧
  decode [0x22#8, 0x10#8] = .ok (.call 0x210#12, []) ∧ decode [0x33#8, 0x2A#8] = .ok (.seImm 0x3#4 0x2A#8, []) ∧
  decode [0x5A#8, 0xB7#8] = .ok (.seReg 0xA#4 0xB#4 0x7#4, []) ∧ decode [0x60#8, 0x9D#8] = .ok (.ldImm 0x0#4 0x9D#8, []) ∧
  decode [0x81#8, 0x27#8] = .ok (.subn 0x1#4 0x2#4, []) ∧ decode [0xC3#8, 0x0F#8] = .ok (.rnd 0x3#4 0x0F#8, []) ∧
  decode [0xD1#8, 0x25#8] = .ok (.drw 0x1#4 0x2#4 0x5#4, []) ∧ decode [0xE3#8, 0x0E#8] = .ok (.skp 0x3#4 0x0#4, []) ∧
  decode [0xE3#8, 0xF1#8] = .ok (.sknp 0x3#4 0xF#4, []) ∧ decode [0xF2#8, 0x0A#8] = .ok (.ldVxK 0x2#4, []) ∧
  decode [0xF0#8, 0x33#8] = .ok (.ldB 0x0#4, []) ∧ decode [0x81#8, 0x28#8] = .ok (.nop 0x8128#16, [])

/-- The no-op words are exactly those R56 lists, and the no-op's Execute completes and changes no state at all
(30_encoding.md R56; the slots' numbers are decision D9, log 3). -/
def Obligations.UnassignedWordsAreTheNoOps : Prop :=
  (∀ w : Word, decodeWord w = .nop w ↔
    (w.toNat / 4096 = 0x0 ∧ w.toNat % 16 ∉ [0x0, 0xE]) ∨
    (w.toNat / 4096 = 0x8 ∧ w.toNat % 16 ∈ [0x8, 0x9, 0xA, 0xB, 0xC, 0xD, 0xF]) ∨
    (w.toNat / 4096 = 0xE ∧ w.toNat % 16 ∉ [0x1, 0xE]) ∨
    (w.toNat / 4096 = 0xF ∧ w.toNat % 256 ∉ [0x07, 0x0A, 0x15, 0x18, 0x1E, 0x29, 0x33, 0x55, 0x65])) ∧
  ∀ (w : Word) (s : State), exec (.nop w) s = .next s

/-- Words that differ only in bits the dispatch does not examine and the instruction does not use execute identically
(30_encoding.md R57, derived there; numbers D9, log 3; dispatch, log 20). -/
def Obligations.IgnoredBitsDoNotMatter : Prop :=
  ∀ (w w' : Word) (s : State),
    (w &&& 0xF00F#16 = 0x0000#16 ∧ w' &&& 0xF00F#16 = 0x0000#16) ∨
    (w &&& 0xF00F#16 = 0x000E#16 ∧ w' &&& 0xF00F#16 = 0x000E#16) ∨
    (w &&& 0xF000#16 = 0x5000#16 ∧ w &&& 0xFFF0#16 = w' &&& 0xFFF0#16) ∨
    (w &&& 0xF000#16 = 0x9000#16 ∧ w &&& 0xFFF0#16 = w' &&& 0xFFF0#16) ∨
    (w &&& 0xF00F#16 = 0xE00E#16 ∧ w &&& 0xFF0F#16 = w' &&& 0xFF0F#16) ∨
    (w &&& 0xF00F#16 = 0xE001#16 ∧ w &&& 0xFF0F#16 = w' &&& 0xFF0F#16) ∨
    (w &&& 0xF00F#16 = 0x8006#16 ∧ w &&& 0xFF0F#16 = w' &&& 0xFF0F#16) ∨
    (w &&& 0xF00F#16 = 0x800E#16 ∧ w &&& 0xFF0F#16 = w' &&& 0xFF0F#16) →
    exec (decodeWord w) s = exec (decodeWord w') s

/-! ## The step -/

/-- The step: a fetch above 0xFFE is undefined; otherwise the two bytes at PC, high byte first, are the word; PC is advanced by 2;
the decoded instruction executes; then each timer that is not 0 goes down by one; an undefined instruction makes the whole step
undefined (30_encoding.md R45, R46). PC may be odd: nothing is asked of it but its range. -/
def Obligations.StepRunsTheDecodedInstruction : Prop :=
  ∀ s : State,
    (0xFFE < s.pc.toNat → step s = .fault (.fetchOutOfRange s.pc)) ∧
    (s.pc.toNat ≤ 0xFFE → ∃ hi lo, s.mem.read s.pc.toNat = some hi ∧ s.mem.read (s.pc.toNat + 1) = some lo) ∧
    ∀ (hi lo : Byte) (w : Word), s.mem.read s.pc.toNat = some hi → s.mem.read (s.pc.toNat + 1) = some lo →
      w.toNat = 256 * hi.toNat + lo.toNat →
      decode [hi, lo] = .ok (decodeWord w, []) ∧
      step s = match exec (decodeWord w) { s with pc := s.pc + 2#16 } with
        | .next m => .next { m with dt := if m.dt = 0#8 then 0#8 else m.dt - 1#8, st := if m.st = 0#8 then 0#8 else m.st - 1#8 }
        | .fault f => .fault f
        | .refused r => .refused r

/-- The timer epilogue: whatever instruction executed, each counter ends one lower than the instruction left it, or at 0, and
nothing else changes after the instruction (60_exceptions.md R118). -/
def Obligations.EpilogueRunsInEveryStep : Prop :=
  ∀ (s m : State) (w : Word), fetch s = .ok w → exec (decodeWord w) s.advancePc = .next m →
    ∃ t, step s = .next t ∧ t.dt.toNat = m.dt.toNat - 1 ∧ t.st.toNat = m.st.toNat - 1 ∧
      ChangesOnly (fun p => p = .dt ∨ p = .st) m t

/-- The step that runs an unassigned word: PC is 2 more, the timers one less if they were not 0, everything else as it was
(30_encoding.md R56; slots' numbers D9, log 3). -/
def Obligations.NoOpStepChangesPcAndTimers : Prop :=
  ∀ (s : State) (w : Word), fetch s = .ok w → isUnassigned w = true →
    ∃ t, step s = .next t ∧ t.pc = s.pc + 2#16 ∧ t.dt.toNat = s.dt.toNat - 1 ∧ t.st.toNat = s.st.toNat - 1 ∧
      ChangesOnly (fun p => p = .pc ∨ p = .dt ∨ p = .st) s t

/-- Every instruction and every step ends in a next state or a fault; none is refused (00_scope.md R8, which allows a next state or
`undefined U<k>`). Among the faults is the model's own for `RET` at SP above 16, `stackEntryMissing`, which is no U<k> of the
spec (DESIGN CHOICE, log 11). -/
def Obligations.EveryOutcomeIsNextOrUndefined : Prop :=
  (∀ (i : Instr) (s : State), (∃ t, exec i s = .next t) ∨ ∃ f, exec i s = .fault f) ∧
  ∀ s : State, (∃ t, step s = .next t) ∨ ∃ f, step s = .fault f

/-- An instruction is undefined exactly under the listed conditions, reports the first met in the order of its pseudocode, and
completes otherwise (60_exceptions.md R112, R114; the conditions are decisions D3, D4, D5, D21, log 6, 7, 8, 22; the one of `RET`
at SP > 16 is the model's own, log 11). -/
def Obligations.UndefinedExactlyWhenListed : Prop :=
  (∀ (i : Instr) (s : State) (f : Fault), exec i s = .fault f ↔ UndefinedAt s i f) ∧
  ∀ (i : Instr) (s : State), (∀ f, ¬ UndefinedAt s i f) → ∃ t, exec i s = .next t

/-- A step goes wrong exactly when its fetch leaves memory or its instruction is undefined; nothing else is an error
(60_exceptions.md R126, derived there; log 6, 11). -/
def Obligations.StepGoesWrongExactlyWhenListed : Prop :=
  ∀ s : State, GoesWrong s ↔
    0xFFE < s.pc.toNat ∨ ∃ w f, fetch s = .ok w ∧ UndefinedAt s.advancePc (decodeWord w) f

/-! ## What instructions may touch -/

/-- Every instruction that completes changes only the parts `writes` names for it: those the pseudocode of its rule writes (R56, R60 to
R107; 10_state.md section 1). `VF` is written implicitly by 8xy4 to 8xy7, 8xyE and Dxyn alone (R11). Clauses that rest on a decision
of the spec or on the model: which pixels a draw may flip, on the order of the sprite bits (PRESUMED, decision D11, log 4) and on
the origin read before VF is reset (D7, log 10); the stack entry a call writes, on the order of push (D8, log 5); I left alone by
LD B and the block transfers, on D15 (log 15); VF left alone by OR, AND and XOR, on D16 (log 16); `draw`, on D2 and the model's own
counter (log 1). -/
def Obligations.InstructionsWriteOnlyTheirParts : Prop :=
  ∀ (i : Instr) (s t : State), exec i s = .next t → ChangesOnly (writes i s) s t

/-- The call stack: a call writes STACK[SP]; a return reads STACK[SP − 1] and the popped entry keeps its value; no other
instruction writes or reads an entry; every entry is 0 after reset (10_state.md R16). -/
def Obligations.StackIsReachedOnlyByCallAndReturn : Prop :=
  (∀ (nnn : Addr12) (s t : State), exec (.call nnn) s = .next t →
    ∀ k : Fin 16, t.stack[k.val] = if k.val = s.sp.toNat then s.pc else s.stack[k.val]) ∧
  (∀ (ign : Byte) (s t : State), exec (.ret ign) s = .next t →
    t.stack = s.stack ∧ ∃ k : Fin 16, k.val + 1 = s.sp.toNat ∧ t.pc = s.stack[k.val]) ∧
  (∀ (i : Instr) (s t : State), (∀ nnn, i ≠ .call nnn) → exec i s = .next t → t.stack = s.stack) ∧
  (∀ (i : Instr) (s : State) (q : Vector Word 16), (∀ nnn, i ≠ .call nnn) → (∀ ign, i ≠ .ret ign) →
    exec i { s with stack := q } = mapNext (fun t => { t with stack := q }) (exec i s)) ∧
  (∀ (nnn : Addr12) (s : State) (q : Vector Word 16), exec (.call nnn) { s with stack := q } =
    mapNext (fun t => { t with stack := q.setIfInBounds s.sp.toNat s.pc }) (exec (.call nnn) s)) ∧
  ∀ k : Fin 16, State.reset.stack[k.val] = 0#16

/-- The keypad: the engine never writes it, neither in an instruction nor in the rest of a step; only Ex9E, ExA1 and Fx0A read it;
the host's SetKey writes one key; all keys are up after reset (10_state.md R22). -/
def Obligations.KeypadIsWrittenByTheHostAlone : Prop :=
  (∀ (i : Instr) (s t : State), exec i s = .next t → t.key = s.key) ∧
  (∀ s t : State, step s = .next t → t.key = s.key) ∧
  (∀ (i : Instr) (s : State) (q : Vector Bool 16), (∀ x ign, i ≠ .skp x ign) → (∀ x ign, i ≠ .sknp x ign) → (∀ x, i ≠ .ldVxK x) →
    exec i { s with key := q } = mapNext (fun t => { t with key := q }) (exec i s)) ∧
  (∀ (k : Fin 16) (b : Bool) (s : State), (hostSetKey k b s).key[k.val] = b ∧
    ChangesOnly (fun p => p = .key k) s (hostSetKey k b s)) ∧
  ∀ k : Fin 16, State.reset.key[k.val] = false

/-- The timer instructions: `LD Vx, DT` writes V[x] alone, `LD DT, Vx` and `LD ST, Vx` write one counter alone; no instruction reads
ST; no other instruction stops or changes a counter, and every step counts both down (46_timers.md R99). -/
def Obligations.TimerInstructionsAndNoOtherTouchTimers : Prop :=
  (∀ (x : Nibble) (s : State), ∃ t, exec (.ldVxDt x) s = .next t ∧ t.getV x = s.dt ∧ ChangesOnly (fun p => p = .v x) s t) ∧
  (∀ (x : Nibble) (s : State), ∃ t, exec (.ldDtVx x) s = .next t ∧ t.dt = s.getV x ∧ ChangesOnly (fun p => p = .dt) s t) ∧
  (∀ (x : Nibble) (s : State), ∃ t, exec (.ldStVx x) s = .next t ∧ t.st = s.getV x ∧ ChangesOnly (fun p => p = .st) s t) ∧
  (∀ (i : Instr) (s : State) (c : Byte), (∀ x, i ≠ .ldStVx x) →
    exec i { s with st := c } = mapNext (fun t => { t with st := c }) (exec i s)) ∧
  (∀ (x : Nibble) (s : State) (c : Byte), exec (.ldStVx x) { s with st := c } = exec (.ldStVx x) s) ∧
  (∀ (i : Instr) (s t : State), (∀ x, i ≠ .ldDtVx x) → exec i s = .next t → t.dt = s.dt) ∧
  ∀ (s t : State) (w : Word), fetch s = .ok w → step s = .next t →
    ((∀ x, decodeWord w ≠ .ldDtVx x) → t.dt.toNat = s.dt.toNat - 1) ∧
    ((∀ x, decodeWord w ≠ .ldStVx x) → t.st.toNat = s.st.toNat - 1)

/-- The random byte is used by `RND` alone: every other instruction does the same whatever random byte is next, and leaves the
draw for the next `RND` (10_state.md R24, 44_random.md R88: decision D2; the draw counter is the model's own, log 1). -/
def Obligations.RandomByteIsUsedByRndAlone : Prop :=
  ∀ (i : Instr) (s : State) (d : Nat), (∀ x kk, i ≠ .rnd x kk) →
    exec i { s with draw := d } = mapNext (fun t => { t with draw := d }) (exec i s)

/-- Framebuffer, keypad and stack are spaces of their own: the framebuffer is reached by 00E0 and Dxyn alone, the keypad by Ex9E,
ExA1 and Fx0A alone, the stack by 2nnn and 00EE alone; an instruction that changes a byte of memory changes no pixel, key or stack
entry; a draw or a call changes no byte of memory (20_memory.md R39). -/
def Obligations.SeparateSpacesDoNotAlias : Prop :=
  (∀ (i : Instr) (s : State) (g : Frame), (∀ ign, i ≠ .cls ign) → (∀ x y n, i ≠ .drw x y n) →
    exec i { s with fb := g } = mapNext (fun t => { t with fb := g }) (exec i s)) ∧
  (∀ (i : Instr) (s : State) (q : Vector Bool 16), (∀ x ign, i ≠ .skp x ign) → (∀ x ign, i ≠ .sknp x ign) → (∀ x, i ≠ .ldVxK x) →
    exec i { s with key := q } = mapNext (fun t => { t with key := q }) (exec i s)) ∧
  (∀ (i : Instr) (s : State) (q : Vector Word 16), (∀ nnn, i ≠ .call nnn) → (∀ ign, i ≠ .ret ign) →
    exec i { s with stack := q } = mapNext (fun t => { t with stack := q }) (exec i s)) ∧
  (∀ (i : Instr) (s t : State), exec i s = .next t → (∃ a, t.mem.read a ≠ s.mem.read a) →
    t.fb = s.fb ∧ t.key = s.key ∧ t.stack = s.stack) ∧
  (∀ (x y n : Nibble) (s t : State), exec (.drw x y n) s = .next t → ∀ a, t.mem.read a = s.mem.read a) ∧
  ∀ (nnn : Addr12) (s t : State), exec (.call nnn) s = .next t → ∀ a, t.mem.read a = s.mem.read a

/-! ## Invariants and runs -/

/-- The invariant holds after reset (10_state.md R28). -/
def Obligations.ResetSatisfiesInv : Prop := Machine.Inv State.reset

/-- From every state that meets the invariant, a step that completes leads to one that meets it: memory stays canonical (log 12), at
most 16 return addresses (R17), no stack entry above 0x1000 (R62), PC at most 0x10FE (R63) and so never wrapping (R14, derived
there; log 5, 14). -/
def Obligations.StepKeepsInv : Prop := ∀ s t : State, Machine.Inv s → step s = .next t → Machine.Inv t

/-- Every operation of the host keeps the invariant: Reset, Load, SetKey, Step (10_state.md R26: decision D1, log 17; log 12). -/
def Obligations.HostOperationsKeepInv : Prop := ∀ (op : HostOp) (s t : State), Machine.Inv s → applyHostOp op s = .next t → Machine.Inv t

/-- In every state a defined run reaches, for every program, every key history and every length, 0 <= SP <= 16; a call with SP = 16
is undefined U3 and a return with SP = 0 is undefined U4 (10_state.md R17). -/
def Obligations.StackPointerStaysInRange : Prop :=
  (∀ (ops : List HostOp) (t : State), runHostOps ops State.reset = .next t → t.sp.toNat ≤ 16) ∧
  (∀ (nnn : Addr12) (s : State), s.sp.toNat = 16 → exec (.call nnn) s = .fault (.stackOverflow (s.pc - 2#16))) ∧
  ∀ (ign : Byte) (s : State), s.sp.toNat = 0 → exec (.ret ign) s = .fault (.stackUnderflow (s.pc - 2#16))

/-! ## Memory -/

/-- A write of one byte changes exactly that byte when its address is at most 0xFFF, and is undefined U2 otherwise; in every memory,
canonical or not (20_memory.md R34). -/
def Obligations.ByteWriteChangesExactlyOneByte : Prop :=
  ∀ (s : State) (a : Nat) (w : Byte),
    (a ≤ 0xFFF → ∃ t, s.writeBlock a [w] = .ok t ∧ t.mem.read a = some w ∧ ChangesOnly (fun p => p = .mem a) s t) ∧
    (0xFFF < a → s.mem.write a w = none ∧ s.writeBlock a [w] = .error (.dataOutOfRange (s.pc - 2#16)))

/-- A store is seen by a fetch at once: if PC points at two bytes `LD [I], Vx` has just stored, the next fetch reads them
(20_memory.md R43, derived there). -/
def Obligations.StoreIsSeenByTheNextFetch : Prop :=
  ∀ (x k : Nibble) (s t : State), k.toNat + 1 ≤ x.toNat → exec (.storeRegs x) s = .next t →
    t.pc.toNat = s.i.toNat + k.toNat →
    ∃ w, fetch t = .ok w ∧ w.toNat = 256 * (s.getV k).toNat + (s.getV (k + 1#4)).toNat

/-! ## Control transfer -/

/-- `JP nnn` and `JP V0, nnn` complete, put the target in PC, the sum not reduced to 12 bits, and change nothing else
(40_control_transfer.md R60, R63: decision D14, log 14). -/
def Obligations.JumpsGoToTheirTarget : Prop :=
  ∀ (nnn : Addr12) (s : State),
    (∃ t, exec (.jp nnn) s = .next t ∧ t.pc.toNat = nnn.toNat ∧ ChangesOnly (fun p => p = .pc) s t) ∧
    ∃ t, exec (.jpV0 nnn) s = .next t ∧ t.pc.toNat = nnn.toNat + (s.getV 0x0#4).toNat ∧ ChangesOnly (fun p => p = .pc) s t

/-- `CALL nnn` with fewer than 16 return addresses on the stack completes: it pushes the advanced PC, counts one more and jumps;
with 16 or more it is undefined U3 (40_control_transfer.md R61: order of push, decision D8, log 5; fault, log 6). -/
def Obligations.CallPushesTheReturnAddress : Prop :=
  ∀ (nnn : Addr12) (s : State),
    (∀ k : Fin 16, k.val = s.sp.toNat → ∃ t, exec (.call nnn) s = .next t ∧ t.stack[k.val] = s.pc ∧
      t.sp.toNat = s.sp.toNat + 1 ∧ t.pc.toNat = nnn.toNat ∧
      ChangesOnly (fun p => p = .stack k ∨ p = .sp ∨ p = .pc) s t) ∧
    (16 ≤ s.sp.toNat → exec (.call nnn) s = .fault (.stackOverflow (s.pc - 2#16)))

/-- `RET` with 1 to 16 return addresses completes: PC is the entry popped, which keeps its value; with none it is undefined U4
(40_control_transfer.md R62: order, decision D8, log 5; above 16 the model's own fault, log 11). -/
def Obligations.ReturnPopsTheReturnAddress : Prop :=
  ∀ (ign : Byte) (s : State),
    (∀ k : Fin 16, k.val + 1 = s.sp.toNat → ∃ t, exec (.ret ign) s = .next t ∧ t.pc = s.stack[k.val] ∧
      t.sp.toNat = k.val ∧ ChangesOnly (fun p => p = .sp ∨ p = .pc) s t) ∧
    (s.sp.toNat = 0 → exec (.ret ign) s = .fault (.stackUnderflow (s.pc - 2#16))) ∧
    (16 < s.sp.toNat → exec (.ret ign) s = .fault (.stackEntryMissing (s.pc - 2#16)))

/-- A return from a subroutine that left the stack as the call made it resumes at the instruction after the call
(40_control_transfer.md R61, R62; decision D8, log 5). -/
def Obligations.ReturnResumesAfterTheCall : Prop :=
  ∀ (nnn : Addr12) (ign : Byte) (s t u : State), exec (.call nnn) s = .next t → u.sp = t.sp → u.stack = t.stack →
    ∃ r, exec (.ret ign) u = .next r ∧ r.pc = s.pc ∧ r.sp = s.sp

/-! ## Conditional skips -/

/-- The four compares complete; PC is 2 more exactly when the condition holds, and nothing else changes
(41_conditional_skip.md R65 to R68). -/
def Obligations.CompareSkips : Prop :=
  ∀ (x y ign : Nibble) (kk : Byte) (s : State),
    (∃ t, exec (.seImm x kk) s = .next t ∧ t.pc = (if s.getV x = kk then s.pc + 2#16 else s.pc) ∧
      ChangesOnly (fun p => p = .pc) s t) ∧
    (∃ t, exec (.sneImm x kk) s = .next t ∧ t.pc = (if s.getV x = kk then s.pc else s.pc + 2#16) ∧
      ChangesOnly (fun p => p = .pc) s t) ∧
    (∃ t, exec (.seReg x y ign) s = .next t ∧ t.pc = (if s.getV x = s.getV y then s.pc + 2#16 else s.pc) ∧
      ChangesOnly (fun p => p = .pc) s t) ∧
    ∃ t, exec (.sneReg x y ign) s = .next t ∧ t.pc = (if s.getV x = s.getV y then s.pc else s.pc + 2#16) ∧
      ChangesOnly (fun p => p = .pc) s t

/-- The two key skips complete for a key number up to 15 and skip on the level of that key; above 15 they are undefined U6
(41_conditional_skip.md R69, R70: decision D5, log 8). -/
def Obligations.KeySkips : Prop :=
  ∀ (x ign : Nibble) (s : State),
    (∀ k : Fin 16, k.val = (s.getV x).toNat →
      (∃ t, exec (.skp x ign) s = .next t ∧ t.pc = (if s.key[k.val] = true then s.pc + 2#16 else s.pc) ∧
        ChangesOnly (fun p => p = .pc) s t) ∧
      ∃ t, exec (.sknp x ign) s = .next t ∧ t.pc = (if s.key[k.val] = true then s.pc else s.pc + 2#16) ∧
        ChangesOnly (fun p => p = .pc) s t) ∧
    (15 < (s.getV x).toNat → exec (.skp x ign) s = .fault (.keyIndexOutOfRange (s.pc - 2#16)) ∧
      exec (.sknp x ign) s = .fault (.keyIndexOutOfRange (s.pc - 2#16)))

/-- Common to the six skips: the only state written is PC, by 0 or 2, VF is not written; the step still runs the timers; a skip
taken at address 0xFFC or above leaves PC above 0xFFE, where the next fetch is undefined U1 (41_conditional_skip.md R71). -/
def Obligations.SkipsWritePcAlone : Prop :=
  ∀ (i : Instr), (∃ x kk, i = .seImm x kk ∨ i = .sneImm x kk) ∨ (∃ x y ign, i = .seReg x y ign ∨ i = .sneReg x y ign) ∨
      (∃ x ign, i = .skp x ign ∨ i = .sknp x ign) →
    (∀ s t : State, exec i s = .next t → ChangesOnly (fun p => p = .pc) s t ∧ t.getV 0xF#4 = s.getV 0xF#4 ∧
      (t.pc = s.pc ∨ t.pc = s.pc + 2#16)) ∧
    ∀ (s t : State) (w : Word), fetch s = .ok w → decodeWord w = i → step s = .next t →
      t.dt.toNat = s.dt.toNat - 1 ∧ t.st.toNat = s.st.toNat - 1 ∧ (t.pc = s.pc + 2#16 ∨ t.pc = s.pc + 4#16) ∧
      (t.pc = s.pc + 4#16 → 0xFFC ≤ s.pc.toNat → 0x1000 ≤ t.pc.toNat ∧ step t = .fault (.fetchOutOfRange t.pc))

/-! ## Transfer and arithmetic -/

/-- `LD Vx, kk`, `LD Vx, Vy` and `ADD Vx, kk` complete with their result in V[x], the sum modulo 256 and no flag; the only state
written is V[x] (42_transfer_immediate.md R75 and the pseudocode of its three rules). -/
def Obligations.TransfersWriteOneRegister : Prop :=
  ∀ (x y : Nibble) (kk : Byte) (s : State),
    (∃ t, exec (.ldImm x kk) s = .next t ∧ t.getV x = kk ∧ ChangesOnly (fun p => p = .v x) s t) ∧
    (∃ t, exec (.ldReg x y) s = .next t ∧ t.getV x = s.getV y ∧ ChangesOnly (fun p => p = .v x) s t) ∧
    ∃ t, exec (.addImm x kk) s = .next t ∧ (t.getV x).toNat = ((s.getV x).toNat + kk.toNat) % 256 ∧
      ChangesOnly (fun p => p = .v x) s t

/-- `OR`, `AND`, `XOR` complete with the bitwise result in V[x] and write no flag (43_alu.md R76 to R78, R86: decision D16,
log 16). -/
def Obligations.BitwiseWritesNoFlag : Prop :=
  ∀ (x y : Nibble) (s : State),
    (∃ t, exec (.orReg x y) s = .next t ∧
      (∀ j, j < 8 → (t.getV x).getLsbD j = ((s.getV x).getLsbD j || (s.getV y).getLsbD j)) ∧
      ChangesOnly (fun p => p = .v x) s t) ∧
    (∃ t, exec (.andReg x y) s = .next t ∧
      (∀ j, j < 8 → (t.getV x).getLsbD j = ((s.getV x).getLsbD j && (s.getV y).getLsbD j)) ∧
      ChangesOnly (fun p => p = .v x) s t) ∧
    ∃ t, exec (.xorReg x y) s = .next t ∧
      (∀ j, j < 8 → (t.getV x).getLsbD j = ((s.getV x).getLsbD j ^^ (s.getV y).getLsbD j)) ∧
      ChangesOnly (fun p => p = .v x) s t

/-- `ADD`, `SUB`, `SUBN` complete for every X and Y: the flag is the carry, or 1 exactly when the minuend is strictly greater (0 on
equal operands), computed from the values before; the result is in V[x] unless x = 15, where the flag is what VF holds; V[x] and VF
alone change (43_alu.md R79, R80, R82, R84, R85: decision D6 for x = 15, log 9). -/
def Obligations.AddAndSubtractSetTheFlag : Prop :=
  ∀ (x y : Nibble) (s : State) (a b : Nat), a = (s.getV x).toNat → b = (s.getV y).toNat →
    (∃ t, exec (.addReg x y) s = .next t ∧ (t.getV 0xF#4).toNat = (if a + b > 255 then 1 else 0) ∧
      (x ≠ 0xF#4 → (t.getV x).toNat = (a + b) % 256) ∧ ChangesOnly (fun p => p = .v x ∨ p = .v 0xF#4) s t) ∧
    (∃ t, exec (.subReg x y) s = .next t ∧ (t.getV 0xF#4).toNat = (if a > b then 1 else 0) ∧
      (x ≠ 0xF#4 → (t.getV x).toNat = (256 + a - b) % 256) ∧ ChangesOnly (fun p => p = .v x ∨ p = .v 0xF#4) s t) ∧
    ∃ t, exec (.subn x y) s = .next t ∧ (t.getV 0xF#4).toNat = (if b > a then 1 else 0) ∧
      (x ≠ 0xF#4 → (t.getV x).toNat = (256 + b - a) % 256) ∧ ChangesOnly (fun p => p = .v x ∨ p = .v 0xF#4) s t

/-- `SHR` and `SHL` complete: V[x] is halved or doubled modulo 256 and the flag is the bit shifted out; V[y] is not used; with x = 15
the flag is what VF holds (43_alu.md R81, R83, R85: decisions D6, D16, log 9, 16). -/
def Obligations.ShiftsSetTheFlag : Prop :=
  ∀ (x y : Nibble) (s : State) (a : Nat), a = (s.getV x).toNat →
    (∃ t, exec (.shr x y) s = .next t ∧ (t.getV 0xF#4).toNat = a % 2 ∧
      (x ≠ 0xF#4 → (t.getV x).toNat = a / 2) ∧ ChangesOnly (fun p => p = .v x ∨ p = .v 0xF#4) s t) ∧
    ∃ t, exec (.shl x y) s = .next t ∧ (t.getV 0xF#4).toNat = (if a ≥ 128 then 1 else 0) ∧
      (x ≠ 0xF#4 → (t.getV x).toNat = 2 * a % 256) ∧ ChangesOnly (fun p => p = .v x ∨ p = .v 0xF#4) s t

/-- `RND Vx, kk` completes with the random byte ANDed with kk in V[x], so that no bit outside kk is set whatever the byte is; V[x]
alone changes of the spec's state, and the draw counter, the model's own, moves on (44_random.md R87: the byte is the free value
of decision D2, log 1). -/
def Obligations.RandomByteIsMasked : Prop :=
  ∀ (x : Nibble) (kk : Byte) (s : State), ∃ t, exec (.rnd x kk) s = .next t ∧ t.getV x = (Config.rnd s.draw &&& kk) ∧
    (∀ j, j < 8 → kk.getLsbD j = false → (t.getV x).getLsbD j = false) ∧ t.draw = s.draw + 1 ∧
    ChangesOnly (fun p => p = .v x ∨ p = .draw) s t

/-! ## Memory and index -/

/-- `LD I, nnn`, `ADD I, Vx` (modulo 65536, no 12-bit wrap, no flag) and `LD F, Vx` (0x050 + 5 times the whole byte, not masked)
complete and change I alone (45_memory_index.md R89, R90, R91: decisions D12, D13, log 15). -/
def Obligations.IndexInstructionsWriteIndexAlone : Prop :=
  ∀ (x : Nibble) (nnn : Addr12) (s : State),
    (∃ t, exec (.ldI nnn) s = .next t ∧ t.i.toNat = nnn.toNat ∧ ChangesOnly (fun p => p = .i) s t) ∧
    (∃ t, exec (.addI x) s = .next t ∧ t.i.toNat = (s.i.toNat + (s.getV x).toNat) % 65536 ∧ ChangesOnly (fun p => p = .i) s t) ∧
    ∃ t, exec (.ldF x) s = .next t ∧ t.i.toNat = 0x050 + 5 * (s.getV x).toNat ∧ ChangesOnly (fun p => p = .i) s t

/-- `LD B, Vx` completes when I + 2 is at most 0xFFF: the three decimal digits of V[x], most significant first, at I, I + 1, I + 2,
and no other change; otherwise the whole step is undefined U2 (45_memory_index.md R92: I unchanged, decision D15, log 15; fault,
log 6). -/
def Obligations.DecimalDigitsAreStored : Prop :=
  ∀ (x : Nibble) (s : State),
    (s.i.toNat + 2 ≤ 0xFFF → ∃ t h d o, exec (.ldB x) s = .next t ∧
      t.mem.read s.i.toNat = some h ∧ t.mem.read (s.i.toNat + 1) = some d ∧ t.mem.read (s.i.toNat + 2) = some o ∧
      (s.getV x).toNat = 100 * h.toNat + 10 * d.toNat + o.toNat ∧ h.toNat ≤ 2 ∧ d.toNat ≤ 9 ∧ o.toNat ≤ 9 ∧
      ChangesOnly (fun p => p = .mem s.i.toNat ∨ p = .mem (s.i.toNat + 1) ∨ p = .mem (s.i.toNat + 2)) s t) ∧
    (0xFFF < s.i.toNat + 2 → exec (.ldB x) s = .fault (.dataOutOfRange (s.pc - 2#16)))

/-- `LD [I], Vx` completes when I + x is at most 0xFFF: V[0] to V[x] inclusive at I up, and no other change; otherwise undefined U2
(45_memory_index.md R93: I unchanged, decision D15, log 15; fault, log 6). -/
def Obligations.RegistersAreStored : Prop :=
  ∀ (x : Nibble) (s : State),
    (s.i.toNat + x.toNat ≤ 0xFFF → ∃ t, exec (.storeRegs x) s = .next t ∧
      (∀ k : Nibble, k.toNat ≤ x.toNat → t.mem.read (s.i.toNat + k.toNat) = some (s.getV k)) ∧
      ChangesOnly (fun p => ∃ k : Nibble, k.toNat ≤ x.toNat ∧ p = .mem (s.i.toNat + k.toNat)) s t) ∧
    (0xFFF < s.i.toNat + x.toNat → exec (.storeRegs x) s = .fault (.dataOutOfRange (s.pc - 2#16)))

/-- `LD Vx, [I]` completes when I + x is at most 0xFFF: V[0] to V[x] inclusive from I up, and no other change; otherwise undefined U2
(45_memory_index.md R94: I unchanged, decision D15, log 15; fault, log 6). -/
def Obligations.RegistersAreLoaded : Prop :=
  ∀ (x : Nibble) (s : State),
    (s.i.toNat + x.toNat ≤ 0xFFF → ∃ t, exec (.loadRegs x) s = .next t ∧
      (∀ k : Nibble, k.toNat ≤ x.toNat → s.mem.read (s.i.toNat + k.toNat) = some (t.getV k)) ∧
      ChangesOnly (fun p => ∃ k : Nibble, k.toNat ≤ x.toNat ∧ p = .v k) s t) ∧
    (0xFFF < s.i.toNat + x.toNat → exec (.loadRegs x) s = .fault (.dataOutOfRange (s.pc - 2#16)))

/-- Registers stored and loaded again from the same place are what they were, whatever happened to the registers between
(45_memory_index.md R93, R94). -/
def Obligations.LoadRestoresStoredRegisters : Prop :=
  ∀ (x : Nibble) (s t u : State), exec (.storeRegs x) s = .next t → u.i = s.i → (∀ a, u.mem.read a = t.mem.read a) →
    ∃ r, exec (.loadRegs x) u = .next r ∧ ∀ k : Nibble, k.toNat ≤ x.toNat → r.getV k = s.getV k

/-! ## Timers and key wait -/

/-- A value written to a timer is counted down once in the writing step itself, and a value read is the one before that step's
count (46_timers.md R96, R97, R98; the words' numbers are decision D9, log 3). -/
def Obligations.TimerWriteCountsTheWritingStep : Prop :=
  ∀ (s : State) (w : Word) (x : Nibble), fetch s = .ok w →
    (decodeWord w = .ldDtVx x → ∃ t, step s = .next t ∧ t.dt.toNat = (s.getV x).toNat - 1 ∧ t.st.toNat = s.st.toNat - 1) ∧
    (decodeWord w = .ldStVx x → ∃ t, step s = .next t ∧ t.st.toNat = (s.getV x).toNat - 1 ∧ t.dt.toNat = s.dt.toNat - 1) ∧
    (decodeWord w = .ldVxDt x → ∃ t, step s = .next t ∧ t.getV x = s.dt ∧ t.dt.toNat = s.dt.toNat - 1)

/-- `LD Vx, K` completes in every state: with a key pressed the lowest-numbered one goes to V[x] and nothing else changes; with none
PC goes back by 2 and nothing else changes (47_key_wait.md R100). -/
def Obligations.KeyWaitTakesTheLowestKey : Prop :=
  ∀ (x : Nibble) (s : State),
    (∀ k : Fin 16, s.key[k.val] = true → (∀ j : Fin 16, j.val < k.val → s.key[j.val] = false) →
      ∃ t, exec (.ldVxK x) s = .next t ∧ (t.getV x).toNat = k.val ∧ ChangesOnly (fun p => p = .v x) s t) ∧
    ((∀ j : Fin 16, s.key[j.val] = false) →
      ∃ t, exec (.ldVxK x) s = .next t ∧ t.pc = s.pc - 2#16 ∧ ChangesOnly (fun p => p = .pc) s t)

/-- The wait is not a machine state: with no key pressed every step at a key wait completes, for any number of steps, PC stays at
the instruction and only the timers change, down to 0; when the host presses a key, the very next step takes a key and goes on
(47_key_wait.md R101). -/
def Obligations.KeyWaitRepeatsUntilAKeyIsPressed : Prop :=
  ∀ (s : State) (w : Word) (x : Nibble), fetch s = .ok w → decodeWord w = .ldVxK x → (∀ j : Fin 16, s.key[j.val] = false) →
    ∀ n : Nat, ∃ t, Host.Core.run core n s = .next t ∧ fetch t = .ok w ∧ t.pc = s.pc ∧ t.dt.toNat = s.dt.toNat - n ∧
      t.st.toNat = s.st.toNat - n ∧ ChangesOnly (fun p => p = .dt ∨ p = .st) s t ∧
      ∀ k : Fin 16, ∃ u, step (hostSetKey k true t) = .next u ∧ u.pc = s.pc + 2#16 ∧ (u.getV x).toNat = k.val

/-! ## Framebuffer -/

/-- `CLS`: every word 0??0, the word 0x0000 included, decodes to it; it completes, every pixel is off, and no other part changes, VF
included; a step with PC at the bytes 0x00, 0xE0 clears every pixel and advances PC by exactly 2 (48_draw.md R102). -/
def Obligations.ClearTurnsEveryPixelOff : Prop :=
  (∀ w : Word, w &&& 0xF00F#16 = 0x0000#16 → ∃ ign, decodeWord w = .cls ign) ∧
  (∀ (ign : Byte) (s : State), ∃ t, exec (.cls ign) s = .next t ∧ (∀ y x, t.fb.read y x = false) ∧
    t.getV 0xF#4 = s.getV 0xF#4 ∧ ChangesOnly (fun p => ∃ y x, p = .pixel y x) s t) ∧
  ∀ s : State, s.mem.read s.pc.toNat = some 0x00#8 → s.mem.read (s.pc.toNat + 1) = some 0xE0#8 →
    ∃ t, step s = .next t ∧ t.pc = s.pc + 2#16 ∧ ∀ y x, t.fb.read y x = false

/-- `DRW Vx, Vy, n`: when every sprite row is defined it completes; exactly the pixels under set sprite bits, columns and rows both
modulo 64, are flipped; VF is 1 if one of them was on before and 0 otherwise; the origin is read before VF is written; nothing else
changes (48_draw.md R104 to R107: bit order, decision D11, log 4; operand order, decision D7, log 10; rows 32 to 63, decision D4,
log 7). -/
def Obligations.DrawFlipsThePixelsUnderTheSprite : Prop :=
  ∀ (x y n : Nibble) (s : State), (∀ r, r < n.toNat → rowDefined s y r) →
    ∃ t, exec (.drw x y n) s = .next t ∧
      (∀ py px, underSprite s x y n py px → t.fb.read py px = !s.fb.read py px) ∧
      (∀ py px, ¬ underSprite s x y n py px → t.fb.read py px = s.fb.read py px) ∧
      ((∃ py px, underSprite s x y n py px ∧ s.fb.read py px = true) → t.getV 0xF#4 = 1#8) ∧
      ((∀ py px, underSprite s x y n py px → s.fb.read py px = false) → t.getV 0xF#4 = 0#8) ∧
      ChangesOnly (fun p => p = .v 0xF#4 ∨ ∃ py px, underSprite s x y n py px ∧ p = .pixel py px) s t

/-- Drawing the same sprite twice at the same origin restores the framebuffer, and the second draw collides exactly when some pixel
under a set sprite bit was off before the first (48_draw.md R109, derived there; log 4, 7, 10). `u` is any state with the
framebuffer of the first draw's result and the operands and sprite bytes it had. -/
def Obligations.DrawingTwiceRestoresTheFramebuffer : Prop :=
  ∀ (x y n : Nibble) (s t u : State), exec (.drw x y n) s = .next t → u.fb = t.fb → u.i = s.i →
    u.getV x = s.getV x → u.getV y = s.getV y → (∀ a, u.mem.read a = s.mem.read a) →
    ∃ r, exec (.drw x y n) u = .next r ∧ r.fb = s.fb ∧
      (r.getV 0xF#4 = 1#8 ↔ ∃ py px, underSprite s x y n py px ∧ s.fb.read py px = false) ∧
      (r.getV 0xF#4 = 1#8 ∨ r.getV 0xF#4 = 0#8)

/-! ## Reset, load, host -/

/-- After reset: all registers, I, SP, the stack, the timers, the framebuffer and the keys are 0, PC is 0x200, memory is 0 outside
0x050..0x09F, and whatever the 80 bytes of GLYPH are, they stand at 0x050 up (10_state.md R28). -/
def Obligations.ResetValues : Prop :=
  ∀ (g : Vector Byte 80) (s : State), s = State.resetWithGlyph g →
    (∀ x, s.getV x = 0#8) ∧ s.i = 0#16 ∧ s.pc = 0x0200#16 ∧ s.sp = 0#8 ∧ (∀ k : Fin 16, s.stack[k.val] = 0#16) ∧
    s.dt = 0#8 ∧ s.st = 0#8 ∧ (∀ y x, s.fb.read y x = false) ∧ (∀ k : Fin 16, s.key[k.val] = false) ∧
    (∀ k : Fin 80, s.mem.read (0x050 + k.val) = some g[k.val]) ∧
    ∀ a, a ≤ 0xFFF → (a < 0x050 ∨ 0x09F < a) → s.mem.read a = some 0#8

/-- The model's `State.reset`, whose unlisted memory reads as the spec's default glyph bytes, is the reset state for that GLYPH:
the byte values are the spec's decision D10 (log 2), the listing of memory is the model's choice (log 12). -/
def Obligations.ResetIsForTheDefaultGlyph : Prop :=
  (∀ g : Vector Byte 80, g.toList = defaultGlyph → State.resetWithGlyph g = State.reset) ∧
  ∀ k : Fin 80, State.reset.mem.read (0x050 + k.val) = some (defaultGlyph.getD k.val 0#8)

/-- Reset from any state gives the reset state in every part of the spec's state, and the first step after it fetches at 0x200
(70_reset_and_hazards.md R130: decision D25, log 17; the draw counter, the model's own, is kept, log 1). -/
def Obligations.ResetFromAnyState : Prop :=
  ∀ s : State, ChangesOnly (fun p => p = .draw) State.reset (hostReset s) ∧ (hostReset s).pc.toNat = 0x200

/-- Load of an image of at most 3584 bytes completes at any time: its bytes stand verbatim from 0x200 up, every other byte and all
other state is as before, an empty image changes nothing, and the next fetch sees the new bytes (70_reset_and_hazards.md R132,
R136). -/
def Obligations.LoadPlacesTheImage : Prop :=
  ∀ (image : List Byte) (s : State), image.length ≤ 3584 → ∃ t, hostLoad image s = .next t ∧
    (∀ k b, image[k]? = some b → t.mem.read (0x200 + k) = some b) ∧
    ChangesOnly (fun p => ∃ k, k < image.length ∧ p = .mem (0x200 + k)) s t ∧ (image = [] → t = s) ∧
    ∀ k hi lo, image[k]? = some hi → image[k + 1]? = some lo → t.pc.toNat = 0x200 + k →
      ∃ w, fetch t = .ok w ∧ w.toNat = 256 * hi.toNat + lo.toNat

/-- A longer image is undefined U7 as a whole (70_reset_and_hazards.md R133: decision D22, log 17). -/
def Obligations.OversizeLoadIsUndefined : Prop :=
  ∀ (image : List Byte) (s : State), 3584 < image.length → hostLoad image s = .fault .loadOverflow

/-- Running without a load: each step fetches 0x0000, the screen clear, and advances PC by 2 with every other part of the state the
reset state's; after 1792 steps PC is 0x1000 and the next step is undefined U1 (70_reset_and_hazards.md R135). -/
def Obligations.EmptyMemoryClearsUntilItOverruns : Prop :=
  (∀ n, n ≤ 1792 → ∃ t, Host.Core.run core n State.reset = .next t ∧ t.pc.toNat = 0x200 + 2 * n ∧
    ChangesOnly (fun p => p = .pc) State.reset t ∧ (n < 1792 → fetch t = .ok 0x0000#16)) ∧
  (∃ ign, decodeWord 0x0000#16 = .cls ign) ∧
  ∀ t, Host.Core.run core 1792 State.reset = .next t → t.pc.toNat = 0x1000 ∧ step t = .fault (.fetchOutOfRange 0x1000#16)

/-- A jump to its own address: for any number of steps PC stays and only the timers change, down to 0 (40_control_transfer.md R60;
70_reset_and_hazards.md R137: decision D20, log 23). -/
def Obligations.SelfJumpLeavesAllButTheTimers : Prop :=
  ∀ (s : State) (w : Word) (nnn : Addr12), fetch s = .ok w → decodeWord w = .jp nnn → s.pc.toNat = nnn.toNat →
    ∀ n : Nat, ∃ t, Host.Core.run core n s = .next t ∧ t.pc = s.pc ∧ t.dt.toNat = s.dt.toNat - n ∧
      t.st.toNat = s.st.toNat - n ∧ ChangesOnly (fun p => p = .dt ∨ p = .st) s t
end

