-- ==== Sys2Proof/Laws/Decode.lean ====
section
/-! SUPPORT. The fields of a packed word are the fields it was packed from, and a word is packed from its fields (30_encoding.md
R48, R49); the fields seen through a mask. -/

namespace Sys2Proof

section Bits
variable (op x y n : Nibble) (kk mid hi lo : Byte) (nnn : Addr12) (i : Nat)

theorem getLsbD_packXYN : (packXYN op x y n).getLsbD i =
    if i < 4 then n.getLsbD i else if i - 4 < 4 then y.getLsbD (i - 4)
    else if i - 4 - 4 < 4 then x.getLsbD (i - 4 - 4) else op.getLsbD (i - 4 - 4 - 4) := by
  show BitVec.getLsbD (op ++ x ++ y ++ n : BitVec (4 + 4 + 4 + 4)) i = _
  simp only [BitVec.getLsbD_append]

theorem getLsbD_packXKK : (packXKK op x kk).getLsbD i =
    if i < 8 then kk.getLsbD i else if i - 8 < 4 then x.getLsbD (i - 8) else op.getLsbD (i - 8 - 4) := by
  show BitVec.getLsbD (op ++ x ++ kk : BitVec (4 + 4 + 8)) i = _
  simp only [BitVec.getLsbD_append]

theorem getLsbD_packNNN : (packNNN op nnn).getLsbD i = if i < 12 then nnn.getLsbD i else op.getLsbD (i - 12) := by
  show BitVec.getLsbD (op ++ nnn : BitVec (4 + 12)) i = _
  simp only [BitVec.getLsbD_append]

theorem getLsbD_packZ : (packZ mid n).getLsbD i = if i < 4 then n.getLsbD i else if i - 4 < 8 then mid.getLsbD (i - 4) else false := by
  show BitVec.getLsbD (0x0#4 ++ mid ++ n : BitVec (4 + 8 + 4)) i = _
  simp only [BitVec.getLsbD_append, BitVec.getLsbD_zero]

theorem getLsbD_composeWord : (composeWord hi lo).getLsbD i = if i < 8 then lo.getLsbD i else hi.getLsbD (i - 8) := by
  show BitVec.getLsbD (hi ++ lo : BitVec (8 + 8)) i = _
  simp only [BitVec.getLsbD_append]

end Bits

section Fields
variable (op x y n : Nibble) (kk mid : Byte) (nnn : Addr12) (w : Word)

@[simp] theorem fieldOp_packXYN : fieldOp (packXYN op x y n) = op := by
  ext i hi; simp [fieldOp, getLsbD_packXYN, show ¬ 12 + i < 4 by omega, show ¬ 12 + i - 4 < 4 by omega,
    show ¬ 12 + i - 4 - 4 < 4 by omega, show 12 + i - 4 - 4 - 4 = i by omega, hi]
@[simp] theorem fieldX_packXYN : fieldX (packXYN op x y n) = x := by
  ext i hi; simp [fieldX, getLsbD_packXYN, show ¬ 8 + i < 4 by omega, show ¬ 8 + i - 4 < 4 by omega,
    show 8 + i - 4 - 4 = i by omega, hi]
@[simp] theorem fieldY_packXYN : fieldY (packXYN op x y n) = y := by
  ext i hi; simp [fieldY, getLsbD_packXYN, hi]
@[simp] theorem fieldN_packXYN : fieldN (packXYN op x y n) = n := by
  ext i hi; simp [fieldN, getLsbD_packXYN, hi]
@[simp] theorem fieldOp_packXKK : fieldOp (packXKK op x kk) = op := by
  ext i hi; simp [fieldOp, getLsbD_packXKK, show ¬ 12 + i < 8 by omega, show ¬ 12 + i - 8 < 4 by omega,
    show 12 + i - 8 - 4 = i by omega, hi]
@[simp] theorem fieldX_packXKK : fieldX (packXKK op x kk) = x := by
  ext i hi; simp [fieldX, getLsbD_packXKK, hi]
@[simp] theorem fieldKK_packXKK : fieldKK (packXKK op x kk) = kk := by
  ext i hi; simp [fieldKK, getLsbD_packXKK, hi]
@[simp] theorem fieldOp_packNNN : fieldOp (packNNN op nnn) = op := by
  ext i hi; simp [fieldOp, getLsbD_packNNN, hi]
@[simp] theorem fieldNNN_packNNN : fieldNNN (packNNN op nnn) = nnn := by
  ext i hi; simp [fieldNNN, getLsbD_packNNN, hi]
@[simp] theorem fieldOp_packZ : fieldOp (packZ mid n) = 0x0#4 := by
  ext i hi; simp [fieldOp, getLsbD_packZ, show ¬ 12 + i < 4 by omega, show ¬ 12 + i - 4 < 8 by omega]
@[simp] theorem fieldMid_packZ : fieldMid (packZ mid n) = mid := by
  ext i hi; simp [fieldMid, getLsbD_packZ, hi]
@[simp] theorem fieldN_packZ : fieldN (packZ mid n) = n := by
  ext i hi; simp [fieldN, getLsbD_packZ, hi]

/-- A word is its four nibbles. -/
theorem packXYN_fields : packXYN (fieldOp w) (fieldX w) (fieldY w) (fieldN w) = w := by
  apply BitVec.eq_of_getLsbD_eq
  intro i hi
  rw [getLsbD_packXYN]
  simp only [fieldOp, fieldX, fieldY, fieldN, BitVec.getLsbD_extractLsb']
  split
  · simp [*]
  · split
    · simp [*, show 4 + (i - 4) = i by omega]
    · split
      · simp [*, show 8 + (i - 4 - 4) = i by omega]
      · simp [show i - 4 - 4 - 4 < 4 by omega, show 12 + (i - 4 - 4 - 4) = i by omega]

/-- A word is its leading nibble, `x` and `kk`. -/
theorem packXKK_fields : packXKK (fieldOp w) (fieldX w) (fieldKK w) = w := by
  apply BitVec.eq_of_getLsbD_eq
  intro i hi
  rw [getLsbD_packXKK]
  simp only [fieldOp, fieldX, fieldKK, BitVec.getLsbD_extractLsb']
  split
  · simp [*]
  · split
    · simp [*, show 8 + (i - 8) = i by omega]
    · simp [show i - 8 - 4 < 4 by omega, show 12 + (i - 8 - 4) = i by omega]

/-- A word is its leading nibble and `nnn`. -/
theorem packNNN_fields : packNNN (fieldOp w) (fieldNNN w) = w := by
  apply BitVec.eq_of_getLsbD_eq
  intro i hi
  rw [getLsbD_packNNN]
  simp only [fieldOp, fieldNNN, BitVec.getLsbD_extractLsb']
  split
  · simp [*]
  · simp [show i - 12 < 4 by omega, show 12 + (i - 12) = i by omega]

/-- A word of group 0 is its bits 11..4 and its trailing nibble. -/
theorem packZ_fields (h : fieldOp w = 0x0#4) : packZ (fieldMid w) (fieldN w) = w := by
  apply BitVec.eq_of_getLsbD_eq
  intro i hi
  rw [getLsbD_packZ]
  simp only [fieldMid, fieldN, BitVec.getLsbD_extractLsb']
  split
  · simp [*]
  · split
    · simp [*, show 4 + (i - 4) = i by omega]
    · have := congrArg (fun v => v.getLsbD (i - 12)) h
      simp only [fieldOp, BitVec.getLsbD_extractLsb', show i - 12 < 4 by omega, show 12 + (i - 12) = i by omega] at this
      simpa using this.symm

/-- The two bytes of a word, composed again, are the word (R46). -/
@[simp] theorem composeWord_bytes : composeWord (w.extractLsb' 8 8) (w.extractLsb' 0 8) = w := by
  apply BitVec.eq_of_getLsbD_eq
  intro i hi
  rw [getLsbD_composeWord]
  split
  · simp [*]
  · simp [show i - 8 < 8 by omega, show 8 + (i - 8) = i by omega]

/-- Two words that agree under a mask which keeps the leading nibble have the same leading nibble. -/
theorem fieldOp_of_masked {v w : Word} (mask : Word) (hmask : fieldOp mask = 0xF#4) (h : w &&& mask = v &&& mask) :
    fieldOp w = fieldOp v := by
  have key : ∀ u : Word, fieldOp (u &&& mask) = fieldOp u := fun u => by
    have e : fieldOp (u &&& mask) = fieldOp u &&& fieldOp mask := BitVec.extractLsb'_and
    rw [e, hmask]; exact BitVec.and_allOnes (x := fieldOp u)
  rw [← key w, h, key]

/-- Two words that agree under a mask which keeps the trailing nibble have the same trailing nibble. -/
theorem fieldN_of_masked {v w : Word} (mask : Word) (hmask : fieldN mask = 0xF#4) (h : w &&& mask = v &&& mask) :
    fieldN w = fieldN v := by
  have key : ∀ u : Word, fieldN (u &&& mask) = fieldN u := fun u => by
    have e : fieldN (u &&& mask) = fieldN u &&& fieldN mask := BitVec.extractLsb'_and
    rw [e, hmask]; exact BitVec.and_allOnes (x := fieldN u)
  rw [← key w, h, key]

/-- Two words that agree under a mask which keeps bits 11..8 have the same `x`. -/
theorem fieldX_of_masked {v w : Word} (mask : Word) (hmask : fieldX mask = 0xF#4) (h : w &&& mask = v &&& mask) :
    fieldX w = fieldX v := by
  have key : ∀ u : Word, fieldX (u &&& mask) = fieldX u := fun u => by
    have e : fieldX (u &&& mask) = fieldX u &&& fieldX mask := BitVec.extractLsb'_and
    rw [e, hmask]; exact BitVec.and_allOnes (x := fieldX u)
  rw [← key w, h, key]

/-- Two words that agree under a mask which keeps bits 7..4 have the same `y`. -/
theorem fieldY_of_masked {v w : Word} (mask : Word) (hmask : fieldY mask = 0xF#4) (h : w &&& mask = v &&& mask) :
    fieldY w = fieldY v := by
  have key : ∀ u : Word, fieldY (u &&& mask) = fieldY u := fun u => by
    have e : fieldY (u &&& mask) = fieldY u &&& fieldY mask := BitVec.extractLsb'_and
    rw [e, hmask]; exact BitVec.and_allOnes (x := fieldY u)
  rw [← key w, h, key]

end Fields

/-- Decoding the bytes of a word decodes the word (R46, R48). -/
theorem decode_bytesOfWord (w : Word) (rest : List Byte) : decode (bytesOfWord w ++ rest) = .ok (decodeWord w, rest) := by
  simp [bytesOfWord, decode]

/-! ## Fields as numbers (R48) -/

theorem fieldOp_toNat (w : Word) : (fieldOp w).toNat = w.toNat / 4096 := by
  have := w.isLt
  simp [fieldOp, BitVec.extractLsb'_toNat, Nat.shiftRight_eq_div_pow]; omega

theorem fieldN_toNat (w : Word) : (fieldN w).toNat = w.toNat % 16 := by simp [fieldN, BitVec.extractLsb'_toNat]

theorem fieldKK_toNat (w : Word) : (fieldKK w).toNat = w.toNat % 256 := by simp [fieldKK, BitVec.extractLsb'_toNat]

/-- A field from its number. -/
theorem field_eq_ofNat {n k : Nat} {f : BitVec n} (h : f.toNat = k) : f = BitVec.ofNat n k := by rw [← h]; simp

/-- The number of two bytes, high byte first (R46). -/
theorem composeWord_toNat (hi lo : Byte) : (composeWord hi lo).toNat = 256 * hi.toNat + lo.toNat := by
  show BitVec.toNat (hi ++ lo : BitVec (8 + 8)) = _
  rw [BitVec.toNat_append, ← Nat.shiftLeft_add_eq_or_of_lt (BitVec.isLt _), Nat.shiftLeft_eq]; omega

end Sys2Proof
end

