-- ==== Sys2Proof/Laws/State.lean ====
section
/-! SUPPORT. What each update of the state does to each field, and what one sees of it part by part. -/

namespace Sys2Proof.Machine

section Update
variable (s : State) (x y : Nibble) (b : Byte)

@[simp] theorem setV_i : (s.setV x b).i = s.i := rfl
@[simp] theorem setV_pc : (s.setV x b).pc = s.pc := rfl
@[simp] theorem setV_sp : (s.setV x b).sp = s.sp := rfl
@[simp] theorem setV_stack : (s.setV x b).stack = s.stack := rfl
@[simp] theorem setV_dt : (s.setV x b).dt = s.dt := rfl
@[simp] theorem setV_st : (s.setV x b).st = s.st := rfl
@[simp] theorem setV_mem : (s.setV x b).mem = s.mem := rfl
@[simp] theorem setV_fb : (s.setV x b).fb = s.fb := rfl
@[simp] theorem setV_key : (s.setV x b).key = s.key := rfl
@[simp] theorem setV_draw : (s.setV x b).draw = s.draw := rfl

/-- A register read after a register write (10_state.md R10). -/
theorem getV_setV : (s.setV x b).getV y = if y = x then b else s.getV y := by
  simp only [State.getV, State.setV, Vector.getElem_set]
  by_cases h : y = x
  · simp [h]
  · have h' : ¬ x.toNat = y.toNat := fun e => h (BitVec.eq_of_toNat_eq e.symm)
    simp [h, h']

@[simp] theorem getV_setV_self : (s.setV x b).getV x = b := by simp [getV_setV]

theorem getV_setV_of_ne (h : y ≠ x) : (s.setV x b).getV y = s.getV y := by simp [getV_setV, h]

@[simp] theorem advancePc_v : s.advancePc.v = s.v := rfl
@[simp] theorem advancePc_i : s.advancePc.i = s.i := rfl
@[simp] theorem advancePc_pc : s.advancePc.pc = s.pc + 2#16 := rfl
@[simp] theorem advancePc_sp : s.advancePc.sp = s.sp := rfl
@[simp] theorem advancePc_stack : s.advancePc.stack = s.stack := rfl
@[simp] theorem advancePc_dt : s.advancePc.dt = s.dt := rfl
@[simp] theorem advancePc_st : s.advancePc.st = s.st := rfl
@[simp] theorem advancePc_mem : s.advancePc.mem = s.mem := rfl
@[simp] theorem advancePc_fb : s.advancePc.fb = s.fb := rfl
@[simp] theorem advancePc_key : s.advancePc.key = s.key := rfl
@[simp] theorem advancePc_draw : s.advancePc.draw = s.draw := rfl
@[simp] theorem advancePc_getV : s.advancePc.getV x = s.getV x := rfl

@[simp] theorem epilogue_v : s.epilogue.v = s.v := rfl
@[simp] theorem epilogue_i : s.epilogue.i = s.i := rfl
@[simp] theorem epilogue_pc : s.epilogue.pc = s.pc := rfl
@[simp] theorem epilogue_sp : s.epilogue.sp = s.sp := rfl
@[simp] theorem epilogue_stack : s.epilogue.stack = s.stack := rfl
@[simp] theorem epilogue_dt : s.epilogue.dt = countDown s.dt := rfl
@[simp] theorem epilogue_st : s.epilogue.st = countDown s.st := rfl
@[simp] theorem epilogue_mem : s.epilogue.mem = s.mem := rfl
@[simp] theorem epilogue_fb : s.epilogue.fb = s.fb := rfl
@[simp] theorem epilogue_key : s.epilogue.key = s.key := rfl
@[simp] theorem epilogue_draw : s.epilogue.draw = s.draw := rfl
@[simp] theorem epilogue_getV : s.epilogue.getV x = s.getV x := rfl

variable (k : Nat) (w : Word)

@[simp] theorem setStackEntry_v : (s.setStackEntry k w).v = s.v := rfl
@[simp] theorem setStackEntry_i : (s.setStackEntry k w).i = s.i := rfl
@[simp] theorem setStackEntry_pc : (s.setStackEntry k w).pc = s.pc := rfl
@[simp] theorem setStackEntry_sp : (s.setStackEntry k w).sp = s.sp := rfl
@[simp] theorem setStackEntry_dt : (s.setStackEntry k w).dt = s.dt := rfl
@[simp] theorem setStackEntry_st : (s.setStackEntry k w).st = s.st := rfl
@[simp] theorem setStackEntry_mem : (s.setStackEntry k w).mem = s.mem := rfl
@[simp] theorem setStackEntry_fb : (s.setStackEntry k w).fb = s.fb := rfl
@[simp] theorem setStackEntry_key : (s.setStackEntry k w).key = s.key := rfl
@[simp] theorem setStackEntry_draw : (s.setStackEntry k w).draw = s.draw := rfl

/-- A stack entry after a push (10_state.md R16). -/
theorem setStackEntry_stack (j : Fin 16) :
    (s.setStackEntry k w).stack[j.val] = if j.val = k then w else s.stack[j.val] := by
  simp only [State.setStackEntry, Vector.getElem_setIfInBounds, eq_comm]

@[simp] theorem skipIf_v (c : Bool) : (s.skipIf c).v = s.v := by cases c <;> rfl
@[simp] theorem skipIf_i (c : Bool) : (s.skipIf c).i = s.i := by cases c <;> rfl
@[simp] theorem skipIf_sp (c : Bool) : (s.skipIf c).sp = s.sp := by cases c <;> rfl
@[simp] theorem skipIf_stack (c : Bool) : (s.skipIf c).stack = s.stack := by cases c <;> rfl
@[simp] theorem skipIf_dt (c : Bool) : (s.skipIf c).dt = s.dt := by cases c <;> rfl
@[simp] theorem skipIf_st (c : Bool) : (s.skipIf c).st = s.st := by cases c <;> rfl
@[simp] theorem skipIf_mem (c : Bool) : (s.skipIf c).mem = s.mem := by cases c <;> rfl
@[simp] theorem skipIf_fb (c : Bool) : (s.skipIf c).fb = s.fb := by cases c <;> rfl
@[simp] theorem skipIf_key (c : Bool) : (s.skipIf c).key = s.key := by cases c <;> rfl
@[simp] theorem skipIf_draw (c : Bool) : (s.skipIf c).draw = s.draw := by cases c <;> rfl
@[simp] theorem skipIf_getV (c : Bool) : (s.skipIf c).getV x = s.getV x := by cases c <;> rfl

/-- Where a skip leaves `PC` (41_conditional_skip.md R71). -/
theorem skipIf_pc (c : Bool) : (s.skipIf c).pc = if c then s.pc + 2#16 else s.pc := by cases c <;> rfl

end Update

/-- `getV` sees the register file alone. -/
theorem getV_congr {s t : State} (h : t.v = s.v) (x : Nibble) : t.getV x = s.getV x := by simp [State.getV, h]

/-- The state's registers written from `V[k]` up: every register at its place in the list, the others as they were
(45_memory_index.md R94). The list must not run past register 15. -/
theorem getV_setVFrom (bs : List Byte) : ∀ (s : State) (k : Nat), k + bs.length ≤ 16 → ∀ y : Nibble,
    (s.setVFrom k bs).getV y = if k ≤ y.toNat then (bs[y.toNat - k]?).getD (s.getV y) else s.getV y := by
  induction bs with
  | nil => intro s k _ y; simp [State.setVFrom]
  | cons b bs ih =>
    intro s k hk y
    have hlen : k + 1 + bs.length ≤ 16 := by simp at hk; omega
    have hkn : (BitVec.ofNat 4 k).toNat = k := by simp at hk ⊢; omega
    rw [State.setVFrom, ih _ _ hlen, getV_setV]
    by_cases h1 : k + 1 ≤ y.toNat
    · have hne : y ≠ BitVec.ofNat 4 k := by intro e; rw [e, hkn] at h1; omega
      have e : y.toNat - k = (y.toNat - (k + 1)) + 1 := by omega
      simp [h1, hne, show k ≤ y.toNat by omega, e]
    · by_cases h2 : y.toNat = k
      · have he : y = BitVec.ofNat 4 k := BitVec.eq_of_toNat_eq (by rw [hkn, h2])
        have h3 : ¬ k + 1 ≤ y.toNat := h1
        rw [if_neg h3, if_pos he, if_pos (by omega)]
        simp [h2]
      · have hne : y ≠ BitVec.ofNat 4 k := by intro e; rw [e, hkn] at h2; omega
        simp [h1, hne, show ¬ k ≤ y.toNat by omega]

section Block
variable (bs : List Byte)

@[simp] theorem setVFrom_i : ∀ (s : State) (k : Nat), (s.setVFrom k bs).i = s.i := by
  induction bs with
  | nil => intros; rfl
  | cons b bs ih => intros; rw [State.setVFrom, ih]; rfl
@[simp] theorem setVFrom_pc : ∀ (s : State) (k : Nat), (s.setVFrom k bs).pc = s.pc := by
  induction bs with
  | nil => intros; rfl
  | cons b bs ih => intros; rw [State.setVFrom, ih]; rfl
@[simp] theorem setVFrom_sp : ∀ (s : State) (k : Nat), (s.setVFrom k bs).sp = s.sp := by
  induction bs with
  | nil => intros; rfl
  | cons b bs ih => intros; rw [State.setVFrom, ih]; rfl
@[simp] theorem setVFrom_stack : ∀ (s : State) (k : Nat), (s.setVFrom k bs).stack = s.stack := by
  induction bs with
  | nil => intros; rfl
  | cons b bs ih => intros; rw [State.setVFrom, ih]; rfl
@[simp] theorem setVFrom_dt : ∀ (s : State) (k : Nat), (s.setVFrom k bs).dt = s.dt := by
  induction bs with
  | nil => intros; rfl
  | cons b bs ih => intros; rw [State.setVFrom, ih]; rfl
@[simp] theorem setVFrom_st : ∀ (s : State) (k : Nat), (s.setVFrom k bs).st = s.st := by
  induction bs with
  | nil => intros; rfl
  | cons b bs ih => intros; rw [State.setVFrom, ih]; rfl
@[simp] theorem setVFrom_mem : ∀ (s : State) (k : Nat), (s.setVFrom k bs).mem = s.mem := by
  induction bs with
  | nil => intros; rfl
  | cons b bs ih => intros; rw [State.setVFrom, ih]; rfl
@[simp] theorem setVFrom_fb : ∀ (s : State) (k : Nat), (s.setVFrom k bs).fb = s.fb := by
  induction bs with
  | nil => intros; rfl
  | cons b bs ih => intros; rw [State.setVFrom, ih]; rfl
@[simp] theorem setVFrom_key : ∀ (s : State) (k : Nat), (s.setVFrom k bs).key = s.key := by
  induction bs with
  | nil => intros; rfl
  | cons b bs ih => intros; rw [State.setVFrom, ih]; rfl
@[simp] theorem setVFrom_draw : ∀ (s : State) (k : Nat), (s.setVFrom k bs).draw = s.draw := by
  induction bs with
  | nil => intros; rfl
  | cons b bs ih => intros; rw [State.setVFrom, ih]; rfl

end Block

section Reset

@[simp] theorem reset_getV (x : Nibble) : State.reset.getV x = 0#8 := by simp [State.getV, State.reset]
@[simp] theorem reset_mem : State.reset.mem = [] := rfl
@[simp] theorem reset_pc : State.reset.pc = 0x200#16 := rfl
@[simp] theorem reset_i : State.reset.i = 0#16 := rfl
@[simp] theorem reset_sp : State.reset.sp = 0#8 := rfl
@[simp] theorem reset_dt : State.reset.dt = 0#8 := rfl
@[simp] theorem reset_st : State.reset.st = 0#8 := rfl
@[simp] theorem reset_fb : State.reset.fb = Frame.blank := rfl
@[simp] theorem reset_draw : State.reset.draw = 0 := rfl
@[simp] theorem reset_stack (k : Fin 16) : State.reset.stack[k.val] = 0#16 := by simp [State.reset]
@[simp] theorem reset_key (k : Fin 16) : State.reset.key[k.val] = false := by simp [State.reset]

end Reset

section Look
variable (s : State)

@[simp] theorem look_v (x : Nibble) : s.look (.v x) = some (s.getV x).toNat := rfl
@[simp] theorem look_i : s.look .i = some s.i.toNat := rfl
@[simp] theorem look_pc : s.look .pc = some s.pc.toNat := rfl
@[simp] theorem look_sp : s.look .sp = some s.sp.toNat := rfl
@[simp] theorem look_stack (k : Fin 16) : s.look (.stack k) = some (s.stack[k.val]).toNat := rfl
@[simp] theorem look_dt : s.look .dt = some s.dt.toNat := rfl
@[simp] theorem look_st : s.look .st = some s.st.toNat := rfl
@[simp] theorem look_mem (a : Nat) : s.look (.mem a) = (s.mem.read a).map BitVec.toNat := rfl
@[simp] theorem look_pixel (y : Fin 32) (x : Fin 64) : s.look (.pixel y x) = some (s.fb.read y x).toNat := rfl
@[simp] theorem look_key (k : Fin 16) : s.look (.key k) = some (s.key[k.val]).toNat := rfl
@[simp] theorem look_draw : s.look .draw = some s.draw := rfl

end Look

/-- A change is confined to the parts of `W` when every other part reads as before, kind by kind. -/
theorem changesOnly_intro {W : Part → Prop} {s t : State}
    (hv : ∀ x, ¬ W (.v x) → t.getV x = s.getV x) (hi : ¬ W .i → t.i = s.i) (hpc : ¬ W .pc → t.pc = s.pc)
    (hsp : ¬ W .sp → t.sp = s.sp) (hstack : ∀ k : Fin 16, ¬ W (.stack k) → t.stack[k.val] = s.stack[k.val])
    (hdt : ¬ W .dt → t.dt = s.dt) (hst : ¬ W .st → t.st = s.st)
    (hmem : ∀ a, ¬ W (.mem a) → t.mem.read a = s.mem.read a)
    (hfb : ∀ y x, ¬ W (.pixel y x) → t.fb.read y x = s.fb.read y x)
    (hkey : ∀ k : Fin 16, ¬ W (.key k) → t.key[k.val] = s.key[k.val]) (hdraw : ¬ W .draw → t.draw = s.draw) :
    ChangesOnly W s t := by
  intro p hp
  cases p with
  | v x => simp [hv x hp]
  | i => simp [hi hp]
  | pc => simp [hpc hp]
  | sp => simp [hsp hp]
  | stack k => simp [hstack k hp]
  | dt => simp [hdt hp]
  | st => simp [hst hp]
  | mem a => simp [hmem a hp]
  | pixel y x => simp [hfb y x hp]
  | key k => simp [hkey k hp]
  | draw => simp [hdraw hp]

/-- Nothing changed. -/
theorem changesOnly_refl (W : Part → Prop) (s : State) : ChangesOnly W s s := fun _ _ => rfl

/-- A larger set of parts. -/
theorem changesOnly_mono {W W' : Part → Prop} {s t : State} (h : ChangesOnly W s t) (hW : ∀ p, W p → W' p) :
    ChangesOnly W' s t := fun p hp => h p fun hw => hp (hW p hw)

/-- One change after another. -/
theorem changesOnly_trans {W : Part → Prop} {s t u : State} (h : ChangesOnly W s t) (h' : ChangesOnly W t u) :
    ChangesOnly W s u := fun p hp => (h' p hp).trans (h p hp)

/-- Writing one register changes that register alone. -/
theorem changesOnly_setV (s : State) (x : Nibble) (b : Byte) : ChangesOnly (fun p => p = .v x) s (s.setV x b) := by
  apply changesOnly_intro <;> intros <;> try rfl
  case hv y hy => exact getV_setV_of_ne s x y b fun e => hy (by rw [e])

/-- The epilogue changes the timers alone (60_exceptions.md R118). -/
theorem changesOnly_epilogue (s : State) : ChangesOnly (fun p => p = .dt ∨ p = .st) s s.epilogue := by
  apply changesOnly_intro <;> intros <;> first | rfl | simp_all

/-- A skip changes `PC` alone (41_conditional_skip.md R71). -/
theorem changesOnly_skipIf (s : State) (c : Bool) : ChangesOnly (fun p => p = .pc) s (s.skipIf c) := by
  cases c <;> apply changesOnly_intro <;> intros <;> first | rfl | simp_all

/-- The result and the flag change `V[x]` and `VF` alone (43_alu.md R85). -/
theorem changesOnly_setVAndFlag (s : State) (x : Nibble) (r : Byte) (c : Bool) :
    ChangesOnly (fun p => p = .v x ∨ p = .v regF) s (s.setVAndFlag x r c) :=
  changesOnly_trans (changesOnly_mono (changesOnly_setV s x r) fun _ => Or.inl)
    (changesOnly_mono (changesOnly_setV _ regF _) fun _ => Or.inr)

/-- After the flag is written, `VF` holds it, whatever `x` is (43_alu.md R85). -/
@[simp] theorem setVAndFlag_regF (s : State) (x : Nibble) (r : Byte) (c : Bool) :
    (s.setVAndFlag x r c).getV regF = flagByte c := getV_setV_self _ _ _

/-- After the flag is written, `V[x]` holds the result unless it is `VF` (43_alu.md R85). -/
theorem setVAndFlag_dest (s : State) (x : Nibble) (r : Byte) (c : Bool) (h : x ≠ regF) :
    (s.setVAndFlag x r c).getV x = r := by
  rw [State.setVAndFlag, getV_setV_of_ne _ _ _ _ h, getV_setV_self]

end Sys2Proof.Machine
end

