-- ==== Sys2Proof/Laws/Memory.lean ====
section
/-! SUPPORT. Memory: a read after a write (20_memory.md R33, R34), block accesses (R37), and the canonical form, which every
operation keeps and in which equal memories are equal data (log 12). -/

namespace Sys2Proof.Machine

theorem find_insert_self (m : Memory) (a : Nat) (w : Byte) (h : m.find a = none) : (m.insert a w).find a = some w := by
  induction m with
  | nil => simp [Memory.insert, Memory.find]
  | cons c m ih =>
    obtain ⟨b, u⟩ := c
    by_cases hb : b = a
    · simp [Memory.find, hb] at h
    · simp only [Memory.find, hb, if_false] at h
      by_cases hlt : a < b
      · simp [Memory.insert, hlt, Memory.find]
      · simp [Memory.insert, hlt, Memory.find, hb, ih h]

theorem find_insert_of_ne (m : Memory) (a b : Nat) (w : Byte) (h : b ≠ a) : (m.insert a w).find b = m.find b := by
  induction m with
  | nil => simp [Memory.insert, Memory.find, Ne.symm h]
  | cons c m ih =>
    obtain ⟨d, u⟩ := c
    by_cases hlt : a < d
    · simp [Memory.insert, hlt, Memory.find, Ne.symm h]
    · simp [Memory.insert, hlt, Memory.find, ih]

theorem find_erase_self (m : Memory) (a : Nat) : (m.erase a).find a = none := by
  induction m with
  | nil => rfl
  | cons c m ih =>
    obtain ⟨b, u⟩ := c
    by_cases hb : b = a
    · simpa [Memory.erase, hb] using ih
    · simpa [Memory.erase, hb, Memory.find] using ih

theorem find_erase_of_ne (m : Memory) (a b : Nat) (h : b ≠ a) : (m.erase a).find b = m.find b := by
  induction m with
  | nil => rfl
  | cons c m ih =>
    obtain ⟨d, u⟩ := c
    by_cases hd : d = a
    · simpa [Memory.erase, hd, Memory.find, Ne.symm h] using ih
    · by_cases hdb : d = b
      · simp [Memory.erase, Memory.find, hdb, h]
      · simpa [Memory.erase, hd, Memory.find, hdb] using ih

/-- A byte read after a byte is put: the new byte at its address, every other byte as before, in every memory. -/
theorem get_put (m : Memory) (a b : Nat) (w : Byte) : (m.put a w).get b = if b = a then w else m.get b := by
  by_cases hw : w = Memory.initial a
  · by_cases hb : b = a
    · simp [Memory.put, Memory.get, hw, hb, find_erase_self]
    · simp [Memory.put, Memory.get, hw, hb, find_erase_of_ne]
  · by_cases hb : b = a
    · simp [Memory.put, Memory.get, hw, hb, find_insert_self, find_erase_self]
    · simp [Memory.put, Memory.get, hw, hb, find_insert_of_ne, find_erase_of_ne]

@[simp] theorem get_put_self (m : Memory) (a : Nat) (w : Byte) : (m.put a w).get a = w := by simp [get_put]

theorem get_put_of_ne (m : Memory) (a b : Nat) (w : Byte) (h : b ≠ a) : (m.put a w).get b = m.get b := by simp [get_put, h]

/-- Unwritten memory holds the reset contents (20_memory.md R31). -/
@[simp] theorem get_nil (a : Nat) : Memory.get [] a = Memory.initial a := rfl

/-- A read inside the array answers its byte (20_memory.md R33). -/
theorem read_of_lt (m : Memory) (a : Nat) (h : a ≤ 0xFFF) : m.read a = some (m.get a) := by
  simp [Memory.read, Config.memSize]; omega

/-- A read outside the array answers nothing: no wrap modulo 4096 (20_memory.md R33). -/
theorem read_of_gt (m : Memory) (a : Nat) (h : 0xFFF < a) : m.read a = none := by
  simp [Memory.read, Config.memSize]; omega

theorem read_eq_some_iff (m : Memory) (a : Nat) (b : Byte) : m.read a = some b ↔ a ≤ 0xFFF ∧ m.get a = b := by
  by_cases h : a ≤ 0xFFF
  · simp [read_of_lt m a h, h]
  · simp [read_of_gt m a (by omega), h]

/-- A read after a byte is put. -/
theorem read_put (m : Memory) (a b : Nat) (w : Byte) (h : a ≤ 0xFFF) :
    (m.put a w).read b = if b = a then some w else m.read b := by
  by_cases hb : b = a
  · simp [hb, read_of_lt _ a h]
  · by_cases hl : b ≤ 0xFFF
    · simp [hb, read_of_lt _ b hl, get_put]
    · simp [hb, read_of_gt _ b (by omega)]

/-- A write inside the array (20_memory.md R34). -/
theorem write_of_lt (m : Memory) (a : Nat) (w : Byte) (h : a ≤ 0xFFF) : m.write a w = some (m.put a w) := by
  simp [Memory.write, Config.memSize]; omega

/-- A write outside the array is undefined (20_memory.md R34). -/
theorem write_of_gt (m : Memory) (a : Nat) (w : Byte) (h : 0xFFF < a) : m.write a w = none := by
  simp [Memory.write, Config.memSize]; omega

/-! ## Blocks -/

/-- A block inside the array: the bytes at its addresses, ascending (20_memory.md R37). -/
theorem readBytes_of_le (m : Memory) (n : Nat) : ∀ a, a + n ≤ 0x1000 →
    m.readBytes a n = some ((List.range n).map fun k => m.get (a + k)) := by
  induction n with
  | zero => intro a _; rfl
  | succ n ih =>
    intro a h
    rw [Memory.readBytes, read_of_lt m a (by omega), ih (a + 1) (by omega)]
    simp only [List.range_succ_eq_map, List.map_cons, List.map_map, Nat.add_zero]
    congr 3
    funext k
    simp only [Function.comp, Nat.succ_eq_add_one]
    congr 1; omega

/-- A block that leaves the array is undefined as a whole (20_memory.md R33). -/
theorem readBytes_of_gt (m : Memory) (n : Nat) : ∀ a, 0 < n → 0x1000 < a + n → m.readBytes a n = none := by
  induction n with
  | zero => intro a h _; omega
  | succ n ih =>
    intro a _ h
    by_cases ha : a ≤ 0xFFF
    · rw [Memory.readBytes, ih (a + 1) (by omega) (by omega)]
      cases m.read a <;> rfl
    · rw [Memory.readBytes, read_of_gt m a (by omega)]

theorem get_putBytes (bs : List Byte) : ∀ (m : Memory) (a b : Nat),
    (m.putBytes a bs).get b = if a ≤ b then (bs[b - a]?).getD (m.get b) else m.get b := by
  induction bs with
  | nil => intro m a b; simp [Memory.putBytes]
  | cons c bs ih =>
    intro m a b
    rw [Memory.putBytes, ih, get_put]
    by_cases h1 : a + 1 ≤ b
    · have e : b - a = (b - (a + 1)) + 1 := by omega
      simp [h1, show ¬ b = a by omega, show a ≤ b by omega, e]
    · by_cases h2 : b = a
      · subst h2; simp
      · simp [h1, h2, show ¬ a ≤ b by omega]

/-- A block written inside the array (20_memory.md R34, R37). -/
theorem writeBytes_of_le (bs : List Byte) : ∀ (m : Memory) (a : Nat), a + bs.length ≤ 0x1000 →
    m.writeBytes a bs = some (m.putBytes a bs) := by
  induction bs with
  | nil => intro m a _; rfl
  | cons b bs ih =>
    intro m a h
    simp at h
    rw [Memory.writeBytes, write_of_lt m a b (by omega)]
    exact ih _ _ (by omega)

/-- A block write that leaves the array is undefined as a whole (20_memory.md R34). -/
theorem writeBytes_of_gt (bs : List Byte) : ∀ (m : Memory) (a : Nat), bs ≠ [] → 0x1000 < a + bs.length →
    m.writeBytes a bs = none := by
  induction bs with
  | nil => intro m a h _; exact absurd rfl h
  | cons b bs ih =>
    intro m a _ h
    by_cases ha : a ≤ 0xFFF
    · rw [Memory.writeBytes, write_of_lt m a b ha]
      simp at h
      exact ih _ _ (by rintro rfl; simp at h; omega) (by omega)
    · rw [Memory.writeBytes, write_of_gt m a b (by omega)]

/-- What every byte reads as after a block was put: the block's bytes in order, every other byte as before. -/
theorem read_putBytes (bs : List Byte) (m : Memory) (a b : Nat) (h : a + bs.length ≤ 0x1000) :
    (m.putBytes a bs).read b = if a ≤ b ∧ b < a + bs.length then bs[b - a]? else m.read b := by
  by_cases hb : b ≤ 0xFFF
  · rw [read_of_lt _ b hb, get_putBytes]
    by_cases h1 : a ≤ b
    · by_cases h2 : b < a + bs.length
      · have : b - a < bs.length := by omega
        simp [h1, h2, List.getElem?_eq_getElem this]
      · have : bs.length ≤ b - a := by omega
        simp [h1, h2, List.getElem?_eq_none this, read_of_lt m b hb]
    · simp [h1, read_of_lt m b hb]
  · rw [read_of_gt _ b (by omega), if_neg (by omega), read_of_gt m b (by omega)]

/-! ## The canonical form -/

theorem mem_insert (m : Memory) (a : Nat) (w : Byte) (c : Host.Cell) : c ∈ m.insert a w ↔ c = (a, w) ∨ c ∈ m := by
  induction m with
  | nil => simp [Memory.insert]
  | cons d m ih =>
    obtain ⟨b, u⟩ := d
    by_cases hlt : a < b
    · simp [Memory.insert, hlt]
    · simp [Memory.insert, hlt, ih]; tauto

theorem mem_erase (m : Memory) (a : Nat) (c : Host.Cell) : c ∈ m.erase a ↔ c ∈ m ∧ c.1 ≠ a := by
  simp [Memory.erase]

theorem pairwise_insert (m : Memory) (a : Nat) (w : Byte) (hm : m.Pairwise (fun c d => c.1 < d.1))
    (ha : ∀ c ∈ m, c.1 ≠ a) : (m.insert a w).Pairwise (fun c d => c.1 < d.1) := by
  induction m with
  | nil => simp [Memory.insert]
  | cons d m ih =>
    obtain ⟨b, u⟩ := d
    rw [List.pairwise_cons] at hm
    by_cases hlt : a < b
    · simp only [Memory.insert, hlt, if_true, List.pairwise_cons]
      refine ⟨fun c hc => ?_, hm.1, hm.2⟩
      rcases List.mem_cons.mp hc with rfl | hc
      · exact hlt
      · exact lt_trans hlt (hm.1 c hc)
    · simp only [Memory.insert, hlt, if_false, List.pairwise_cons]
      refine ⟨fun c hc => ?_, ih hm.2 fun c hc => ha c (List.mem_cons_of_mem _ hc)⟩
      rcases (mem_insert m a w c).mp hc with rfl | hc
      · have := ha (b, u) List.mem_cons_self
        simp at this; omega
      · exact hm.1 c hc

/-- Reset memory, with nothing listed, is canonical. -/
theorem wf_nil : Memory.wf [] := by simp [Memory.wf]

/-- Putting a byte at an address of the array keeps the canonical form. -/
theorem wf_put (m : Memory) (a : Nat) (w : Byte) (ha : a ≤ 0xFFF) (hm : m.wf) : (m.put a w).wf := by
  have herase : (m.erase a).Pairwise (fun c d => c.1 < d.1) := hm.1.filter _
  have hin : ∀ c ∈ m.erase a, c.1 < Config.memSize ∧ c.2 ≠ Memory.initial c.1 :=
    fun c hc => hm.2 c ((mem_erase m a c).mp hc).1
  by_cases hw : w = Memory.initial a
  · rw [Memory.put, if_pos hw]; exact ⟨herase, hin⟩
  · rw [Memory.put, if_neg hw]
    refine ⟨pairwise_insert _ a w herase fun c hc => ((mem_erase m a c).mp hc).2, fun c hc => ?_⟩
    rcases (mem_insert _ a w c).mp hc with rfl | hc
    · exact ⟨by simp [Config.memSize]; omega, hw⟩
    · exact hin c hc

/-- `MemWrite` keeps the canonical form. -/
theorem wf_write (m m' : Memory) (a : Nat) (w : Byte) (hm : m.wf) (h : m.write a w = some m') : m'.wf := by
  by_cases ha : a ≤ 0xFFF
  · rw [write_of_lt m a w ha] at h
    cases h; exact wf_put m a w ha hm
  · rw [write_of_gt m a w (by omega)] at h; cases h

/-- A block write keeps the canonical form. -/
theorem wf_writeBytes (bs : List Byte) : ∀ (m m' : Memory) (a : Nat), m.wf → m.writeBytes a bs = some m' → m'.wf := by
  induction bs with
  | nil => intro m m' a hm h; cases h; exact hm
  | cons b bs ih =>
    intro m m' a hm h
    rw [Memory.writeBytes] at h
    split at h
    · exact ih _ _ _ (wf_write m _ a b hm ‹_›) h
    · cases h

/-- A block put inside the array keeps the canonical form. -/
theorem wf_putBytes (bs : List Byte) (m : Memory) (a : Nat) (h : a + bs.length ≤ 0x1000) (hm : m.wf) :
    (m.putBytes a bs).wf := wf_writeBytes bs m _ a hm (writeBytes_of_le bs m a h)

theorem find_eq_some_of_mem (m : Memory) (hm : m.Pairwise (fun c d => c.1 < d.1)) (c : Host.Cell) (hc : c ∈ m) :
    m.find c.1 = some c.2 := by
  induction m with
  | nil => cases hc
  | cons d m ih =>
    obtain ⟨b, u⟩ := d
    rw [List.pairwise_cons] at hm
    rcases List.mem_cons.mp hc with rfl | hc
    · simp [Memory.find]
    · have := hm.1 c hc
      simp only at this
      simp [Memory.find, show ¬ b = c.1 by omega, ih hm.2 hc]

theorem mem_of_find_eq_some (m : Memory) (a : Nat) (w : Byte) (h : m.find a = some w) : (a, w) ∈ m := by
  induction m with
  | nil => cases h
  | cons d m ih =>
    obtain ⟨b, u⟩ := d
    by_cases hb : b = a
    · simp [Memory.find, hb] at h; simp [hb, h]
    · simp [Memory.find, hb] at h; exact List.mem_cons_of_mem _ (ih h)

theorem mem_iff_get (m : Memory) (hm : m.wf) (a : Nat) (w : Byte) :
    (a, w) ∈ m ↔ m.get a = w ∧ w ≠ Memory.initial a := by
  constructor
  · intro h
    have := find_eq_some_of_mem m hm.1 _ h
    exact ⟨by simp [Memory.get, this], (hm.2 _ h).2⟩
  · rintro ⟨h, hne⟩
    apply mem_of_find_eq_some
    cases hf : m.find a with
    | none => exact absurd (by simpa [Memory.get, hf] using h.symm) hne
    | some u => simpa [Memory.get, hf] using h

/-- Two canonical memories in which every address reads alike are the same list: equal memories are equal data. -/
theorem wf_ext (m m' : Memory) (hm : m.wf) (hm' : m'.wf) (h : ∀ a, m.read a = m'.read a) : m = m' := by
  have hget : ∀ a, a ≤ 0xFFF → m.get a = m'.get a := fun a ha => by
    simpa [read_of_lt _ a ha] using h a
  have hperm : m.Perm m' := by
    rw [List.perm_ext_iff_of_nodup]
    · rintro ⟨a, w⟩
      constructor <;> intro hc
      · have ha := (hm.2 _ hc).1
        simp only [Config.memSize] at ha
        rw [mem_iff_get m hm, hget a (by omega)] at hc
        exact (mem_iff_get m' hm' a w).mpr hc
      · have ha := (hm'.2 _ hc).1
        simp only [Config.memSize] at ha
        rw [mem_iff_get m' hm', ← hget a (by omega)] at hc
        exact (mem_iff_get m hm a w).mpr hc
    · exact hm.1.imp fun {c d} hlt e => by simp [e] at hlt
    · exact hm'.1.imp fun {c d} hlt e => by simp [e] at hlt
  exact hperm.eq_of_pairwise (fun c d _ _ hcd hdc => absurd hcd (by omega)) hm.1 hm'.1

end Sys2Proof.Machine
end

