-- ==== Sys2Proof/Laws/Frame.lean ====
section
/-! SUPPORT. The framebuffer unit (48_draw.md R103) and everything the sprite scan can do (R104 to R108): which pixels it flips,
when it reports a collision, when it is undefined. -/

namespace Sys2Proof.Machine

@[simp] theorem read_blank (y : Fin 32) (x : Fin 64) : Frame.blank.read y x = false := by
  simp [Frame.read, Frame.blank]

/-- A pixel read after a flip (48_draw.md R103). -/
theorem read_flip (f : Frame) (y y' : Fin 32) (x x' : Fin 64) :
    (f.flip y x).read y' x' = if y' = y ∧ x' = x then !f.read y x else f.read y' x' := by
  by_cases hy : y' = y
  · subst hy
    by_cases hx : x' = x
    · subst hx; simp [Frame.read, Frame.flip]
    · have hx' : ¬ x.val = x'.val := fun e => hx (Fin.ext e.symm)
      simp [Frame.read, Frame.flip, hx, hx']
  · have hy' : ¬ y.val = y'.val := fun e => hy (Fin.ext e.symm)
    simp [Frame.read, Frame.flip, hy, hy']

/-- Two framebuffers with the same pixels are the same data. -/
theorem frame_ext (f g : Frame) (h : ∀ y x, f.read y x = g.read y x) : f = g := by
  apply Vector.ext
  intro y hy
  apply Vector.ext
  intro x hx
  exact h ⟨y, hy⟩ ⟨x, hx⟩

/-- A byte with no set sprite bit is zero (48_draw.md R108). -/
theorem exists_spriteBit_iff (b : Byte) : (∃ c, c < 8 ∧ spriteBit b c = true) ↔ b ≠ 0#8 := by
  constructor
  · rintro ⟨c, _, h⟩ rfl; simp [spriteBit] at h
  · intro h
    by_contra hn
    apply h
    apply BitVec.eq_of_getLsbD_eq
    intro i hi
    cases hb : b.getLsbD i with
    | false => simp
    | true => exact absurd ⟨7 - i, by omega, by simp [spriteBit, show 7 - (7 - i) = i by omega, hb]⟩ hn

/-- The pixel lies under one of the columns of the list, of one sprite row (R105). -/
def rowCovers (b : Byte) (ox oyr : Nat) (cs : List Nat) (y : Fin 32) (x : Fin 64) : Prop :=
  ∃ c ∈ cs, spriteBit b c = true ∧ (ox + c) % 64 = x.val ∧ oyr % 64 = y.val

/-- What a scan did that flipped exactly the pixels of `C` (each once) and collided where one of them was on (R106). -/
structure Flipped (C : Fin 32 → Fin 64 → Prop) (sc sc' : Scan) : Prop where
  on : ∀ y x, C y x → sc'.fb.read y x = !sc.fb.read y x
  off : ∀ y x, ¬ C y x → sc'.fb.read y x = sc.fb.read y x
  hit : sc'.hit = true ↔ sc.hit = true ∨ ∃ y x, C y x ∧ sc.fb.read y x = true

/-- Two scans one after the other, over pixels that do not meet. -/
theorem Flipped.trans {C D E : Fin 32 → Fin 64 → Prop} {a b c : Scan} (h : Flipped C a b) (h' : Flipped D b c)
    (hE : ∀ y x, E y x ↔ C y x ∨ D y x) (hCD : ∀ y x, C y x → ¬ D y x) : Flipped E a c where
  on y x he := by
    rcases (hE y x).mp he with hc | hd
    · rw [h'.off y x (hCD y x hc), h.on y x hc]
    · rw [h'.on y x hd, h.off y x fun hc => hCD y x hc hd]
  off y x he := by
    rw [hE] at he
    rw [h'.off y x fun hd => he (Or.inr hd), h.off y x fun hc => he (Or.inl hc)]
  hit := by
    rw [h'.hit, h.hit, or_assoc]
    refine or_congr Iff.rfl ⟨?_, ?_⟩
    · rintro (⟨y, x, hc, hon⟩ | ⟨y, x, hd, hon⟩)
      · exact ⟨y, x, (hE y x).mpr (Or.inl hc), hon⟩
      · exact ⟨y, x, (hE y x).mpr (Or.inr hd), by rwa [h.off y x fun hc => hCD y x hc hd] at hon⟩
    · rintro ⟨y, x, he, hon⟩
      rcases (hE y x).mp he with hc | hd
      · exact Or.inl ⟨y, x, hc, hon⟩
      · exact Or.inr ⟨y, x, hd, by rwa [h.off y x fun hc => hCD y x hc hd]⟩

/-- A scan of nothing. -/
theorem Flipped.none {C : Fin 32 → Fin 64 → Prop} (sc : Scan) (h : ∀ y x, ¬ C y x) : Flipped C sc sc where
  on y x hc := absurd hc (h y x)
  off _ _ _ := rfl
  hit := ⟨Or.inl, fun h' => h'.elim id fun ⟨y, x, hc, _⟩ => absurd hc (h y x)⟩

/-- One set sprite bit on a row of the grid (R103, R104). -/
theorem pixel_of_lt (sc : Scan) (fault : Fault) (px py : Nat) (hpx : px < 64) (hpy : py < 32) :
    ∃ sc', sc.pixel fault px py = .ok sc' ∧ Flipped (fun y x => x.val = px ∧ y.val = py) sc sc' := by
  refine ⟨_, by simp only [Scan.pixel, hpy, dif_pos]; rfl, ?_⟩
  have hx : (Fin.ofNat 64 px).val = px := by simp [Nat.mod_eq_of_lt hpx]
  refine ⟨?_, ?_, ?_⟩
  · rintro y x ⟨h1, h2⟩
    have e1 : x = Fin.ofNat 64 px := Fin.ext (by rw [hx, h1])
    have e2 : y = ⟨py, hpy⟩ := Fin.ext h2
    simp [read_flip, e1, e2]
  · intro y x h
    rw [read_flip, if_neg]
    rintro ⟨rfl, rfl⟩
    exact h ⟨hx, rfl⟩
  · simp only [Bool.or_eq_true]
    refine or_congr Iff.rfl ⟨fun h => ⟨_, _, ⟨hx, rfl⟩, h⟩, ?_⟩
    rintro ⟨y, x, ⟨h1, h2⟩, h⟩
    have e1 : x = Fin.ofNat 64 px := Fin.ext (by rw [hx, h1])
    have e2 : y = ⟨py, hpy⟩ := Fin.ext h2
    rwa [e1, e2] at h

/-- One set sprite bit off the grid is undefined (R108). -/
theorem pixel_of_ge (sc : Scan) (fault : Fault) (px py : Nat) (hpy : 32 ≤ py) : sc.pixel fault px py = .error fault := by
  simp [Scan.pixel, show ¬ py < 32 by omega]

/-- The columns of a sprite row that stays on the grid, or has no set bit among them. -/
theorem columns_ok (fault : Fault) (b : Byte) (ox oyr : Nat) (cs : List Nat) : ∀ sc : Scan, cs.Nodup → (∀ c ∈ cs, c < 8) →
    ((∃ c ∈ cs, spriteBit b c = true) → oyr % 64 ≤ 31) →
    ∃ sc', sc.columns fault b ox oyr cs = .ok sc' ∧ Flipped (rowCovers b ox oyr cs) sc sc' := by
  induction cs with
  | nil => intro sc _ _ _; exact ⟨sc, rfl, Flipped.none sc fun y x ⟨c, hc, _⟩ => by cases hc⟩
  | cons c cs ih =>
    intro sc hnd hlt hrow
    rw [List.nodup_cons] at hnd
    have hlt' : ∀ d ∈ cs, d < 8 := fun d hd => hlt d (List.mem_cons_of_mem _ hd)
    have hrow' : (∃ d ∈ cs, spriteBit b d = true) → oyr % 64 ≤ 31 :=
      fun ⟨d, hd, h⟩ => hrow ⟨d, List.mem_cons_of_mem _ hd, h⟩
    by_cases hbit : spriteBit b c = true
    · have hy := hrow ⟨c, List.mem_cons_self, hbit⟩
      obtain ⟨sc1, e1, f1⟩ := pixel_of_lt sc fault ((ox + c) % 64) (oyr % 64) (Nat.mod_lt _ (by decide)) (by omega)
      obtain ⟨sc2, e2, f2⟩ := ih sc1 hnd.2 hlt' hrow'
      refine ⟨sc2, by rw [Scan.columns, if_pos hbit, e1]; exact e2, f1.trans f2 ?_ ?_⟩
      · intro y x
        simp only [rowCovers, List.mem_cons, exists_eq_or_imp, hbit, true_and]
        refine or_congr ⟨?_, ?_⟩ Iff.rfl <;> rintro ⟨h1, h2⟩ <;> exact ⟨h1.symm, h2.symm⟩
      · rintro y x ⟨h1, h2⟩ ⟨d, hd, _, h3, _⟩
        have hc := hlt c List.mem_cons_self
        have hd8 := hlt' d hd
        have : c ≠ d := fun e => hnd.1 (e ▸ hd)
        omega
    · obtain ⟨sc2, e2, f2⟩ := ih sc hnd.2 hlt' hrow'
      refine ⟨sc2, by rw [Scan.columns, if_neg hbit]; exact e2, ?_⟩
      have hC : rowCovers b ox oyr (c :: cs) = rowCovers b ox oyr cs := by
        funext y x
        simp [rowCovers, hbit]
      rwa [hC]

/-- A set bit among the columns of a sprite row off the grid is undefined (R108). -/
theorem columns_error (fault : Fault) (b : Byte) (ox oyr : Nat) (cs : List Nat) (sc : Scan)
    (h : ∃ c ∈ cs, spriteBit b c = true) (hy : 31 < oyr % 64) : sc.columns fault b ox oyr cs = .error fault := by
  induction cs with
  | nil => obtain ⟨c, hc, _⟩ := h; cases hc
  | cons c cs ih =>
    by_cases hbit : spriteBit b c = true
    · rw [Scan.columns, if_pos hbit, pixel_of_ge _ _ _ _ hy]
    · rw [Scan.columns, if_neg hbit]
      apply ih
      obtain ⟨d, hd, hb⟩ := h
      rcases List.mem_cons.mp hd with rfl | hd
      · exact absurd hb hbit
      · exact ⟨d, hd, hb⟩

/-- The pixel lies under one of the sprite rows of the list (R104, R105). -/
def spriteCovers (s : State) (ox oy : Nat) (rs : List Nat) (y : Fin 32) (x : Fin 64) : Prop :=
  ∃ r ∈ rs, ∃ b, s.mem.read (s.i.toNat + r) = some b ∧ rowCovers b ox (oy + r) (List.range 8) y x

/-- Sprite rows each of which is defined: exactly the pixels under their set bits are flipped, with the collision of R106. -/
theorem rows_ok (s : State) (ox oy : Nat) (rs : List Nat) : ∀ sc : Scan, rs.Nodup → (∀ r ∈ rs, r < 16) →
    (∀ r ∈ rs, ∃ b, s.mem.read (s.i.toNat + r) = some b ∧ (b ≠ 0#8 → (oy + r) % 64 ≤ 31)) →
    ∃ sc', sc.rows s ox oy rs = .ok sc' ∧ Flipped (spriteCovers s ox oy rs) sc sc' := by
  induction rs with
  | nil => intro sc _ _ _; exact ⟨sc, rfl, Flipped.none sc fun y x ⟨r, hr, _⟩ => by cases hr⟩
  | cons r rs ih =>
    intro sc hnd hlt hdef
    rw [List.nodup_cons] at hnd
    have hlt' : ∀ q ∈ rs, q < 16 := fun q hq => hlt q (List.mem_cons_of_mem _ hq)
    obtain ⟨b, hb, hrow⟩ := hdef r List.mem_cons_self
    have hread : s.readData (s.dataAddr r) = .ok b := by simp [State.readData, State.dataAddr, hb]
    obtain ⟨sc1, e1, f1⟩ := columns_ok (.fbRowOutOfRange s.instrAddr) b ox (oy + r) (List.range 8) sc List.nodup_range
      (fun c hc => List.mem_range.mp hc)
      (fun ⟨c, hc, h⟩ => hrow ((exists_spriteBit_iff b).mp ⟨c, List.mem_range.mp hc, h⟩))
    obtain ⟨sc2, e2, f2⟩ := ih sc1 hnd.2 hlt' fun q hq => hdef q (List.mem_cons_of_mem _ hq)
    refine ⟨sc2, by rw [Scan.rows, hread]; simp only [e1]; exact e2, f1.trans f2 ?_ ?_⟩
    · intro y x
      simp only [spriteCovers, List.mem_cons, exists_eq_or_imp, hb, Option.some.injEq, exists_eq_left']
    · rintro y x ⟨c, _, _, _, h1⟩ ⟨q, hq, b', _, c', _, _, _, h2⟩
      have hr := hlt r List.mem_cons_self
      have hq16 := hlt' q hq
      have : r ≠ q := fun e => hnd.1 (e ▸ hq)
      omega

/-- The first sprite row that is undefined decides which condition is reported (60_exceptions.md R114). -/
theorem rows_error (s : State) (ox oy : Nat) (pre post : List Nat) (r : Nat) (f : Fault)
    (hr : (0xFFF < s.i.toNat + r ∧ f = .dataOutOfRange s.instrAddr) ∨
      (∃ b, s.mem.read (s.i.toNat + r) = some b ∧ b ≠ 0#8 ∧ 31 < (oy + r) % 64 ∧ f = .fbRowOutOfRange s.instrAddr)) :
    ∀ sc : Scan, (pre ++ r :: post).Nodup → (∀ q ∈ pre ++ r :: post, q < 16) →
    (∀ q ∈ pre, ∃ b, s.mem.read (s.i.toNat + q) = some b ∧ (b ≠ 0#8 → (oy + q) % 64 ≤ 31)) →
    sc.rows s ox oy (pre ++ r :: post) = .error f := by
  induction pre with
  | nil =>
    intro sc _ _ _
    rcases hr with ⟨h, rfl⟩ | ⟨b, hb, hne, hy, rfl⟩
    · simp [Scan.rows, State.readData, State.dataAddr, read_of_gt _ _ h]
    · obtain ⟨c, hc, hbit⟩ := (exists_spriteBit_iff b).mpr hne
      have := columns_error (.fbRowOutOfRange s.instrAddr) b ox (oy + r) (List.range 8) sc
        ⟨c, List.mem_range.mpr hc, hbit⟩ hy
      simp [Scan.rows, State.readData, State.dataAddr, hb, this]
  | cons q pre ih =>
    intro sc hnd hlt hdef
    obtain ⟨b, hb, hrow⟩ := hdef q List.mem_cons_self
    have hread : s.readData (s.dataAddr q) = .ok b := by simp [State.readData, State.dataAddr, hb]
    obtain ⟨sc1, e1, _⟩ := columns_ok (.fbRowOutOfRange s.instrAddr) b ox (oy + q) (List.range 8) sc List.nodup_range
      (fun c hc => List.mem_range.mp hc)
      (fun ⟨c, hc, h⟩ => hrow ((exists_spriteBit_iff b).mp ⟨c, List.mem_range.mp hc, h⟩))
    rw [List.cons_append, List.nodup_cons] at hnd
    have := ih sc1 hnd.2 (fun d hd => hlt d (List.mem_cons_of_mem _ hd)) fun d hd => hdef d (List.mem_cons_of_mem _ hd)
    rw [List.cons_append, Scan.rows, hread]
    simp only [e1]
    exact this

/-- A row is defined, or it is the reason the draw is undefined. -/
theorem rowDefined_or (s : State) (y : Nibble) (r : Nat) : rowDefined s y r ∨
    0xFFF < s.i.toNat + r ∨
    (∃ b, s.mem.read (s.i.toNat + r) = some b ∧ b ≠ 0#8 ∧ 31 < ((s.getV y).toNat + r) % 64) := by
  by_cases h : s.i.toNat + r ≤ 0xFFF
  · by_cases h2 : s.mem.get (s.i.toNat + r) ≠ 0#8 ∧ 31 < ((s.getV y).toNat + r) % 64
    · exact Or.inr (Or.inr ⟨_, read_of_lt _ _ h, h2⟩)
    · exact Or.inl ⟨_, read_of_lt _ _ h, fun hb => by by_contra hc; exact h2 ⟨hb, by omega⟩⟩
  · exact Or.inr (Or.inl (by omega))

theorem spriteCovers_range (s : State) (x y n : Nibble) (py : Fin 32) (px : Fin 64) :
    spriteCovers s (s.getV x).toNat (s.getV y).toNat (List.range n.toNat) py px ↔ underSprite s x y n py px := by
  constructor
  · rintro ⟨r, hr, b, hb, c, hc, hbit, h1, h2⟩
    exact ⟨r, c, List.mem_range.mp hr, List.mem_range.mp hc, ⟨b, hb, hbit⟩, h1, h2⟩
  · rintro ⟨r, c, hr, hc, ⟨b, hb, hbit⟩, h1, h2⟩
    exact ⟨r, List.mem_range.mpr hr, b, hb, c, List.mem_range.mpr hc, hbit, h1, h2⟩

/-- Everything `DRW` can do: it completes exactly when every row is defined, flips exactly the pixels under set sprite bits and
leaves the collision in `VF` (48_draw.md R104 to R108). -/
theorem execDrw_ok (x y n : Nibble) (s : State) (h : ∀ r, r < n.toNat → rowDefined s y r) :
    ∃ sc : Scan, execDrw x y n s = .next ({ s with fb := sc.fb }.setV regF (flagByte sc.hit)) ∧
      Flipped (underSprite s x y n) { fb := s.fb, hit := false } sc := by
  obtain ⟨sc, e, f⟩ := rows_ok s (s.getV x).toNat (s.getV y).toNat (List.range n.toNat) { fb := s.fb, hit := false }
    List.nodup_range (fun r hr => by have := List.mem_range.mp hr; have := n.isLt; omega)
    (fun r hr => h r (List.mem_range.mp hr))
  refine ⟨sc, by rw [execDrw, e], ?_⟩
  have hC : spriteCovers s (s.getV x).toNat (s.getV y).toNat (List.range n.toNat) = underSprite s x y n := by
    funext py px; exact propext (spriteCovers_range s x y n py px)
  rwa [hC] at f

/-- `DRW` with an undefined row reports the first one (48_draw.md R104, R108; 60_exceptions.md R114). -/
theorem execDrw_fault (x y n : Nibble) (s : State) (f : Fault) (h : UndefinedAt s (.drw x y n) f) :
    execDrw x y n s = .fault f := by
  obtain ⟨r, hr, hpre, hbad⟩ := h
  have hsplit : List.range n.toNat = List.range r ++ r :: (List.range (n.toNat - r - 1)).map (r + 1 + ·) := by
    rw [show n.toNat = r + ((n.toNat - r - 1) + 1) by omega, List.range_add, List.range_succ_eq_map]
    simp only [List.map_cons, List.map_map, Nat.add_zero]
    congr 2
    rw [show r + (n.toNat - r - 1 + 1) - r - 1 = n.toNat - r - 1 by omega]
    apply List.map_congr_left
    intro k _
    simp only [Function.comp, Nat.succ_eq_add_one]; omega
  have hnd : (List.range n.toNat).Nodup := List.nodup_range
  have hlt : ∀ q ∈ List.range n.toNat, q < 16 := fun q hq => by have := List.mem_range.mp hq; have := n.isLt; omega
  rw [execDrw, hsplit, rows_error s _ _ _ _ r f hbad _ (hsplit ▸ hnd) (hsplit ▸ hlt)
    fun q hq => hpre q (List.mem_range.mp hq)]

/-- Either every row is defined, or there is a first one that is not. -/
theorem drw_defined_or (x y n : Nibble) (s : State) :
    (∀ r, r < n.toNat → rowDefined s y r) ∨ ∃ f, UndefinedAt s (.drw x y n) f := by
  by_cases h : ∀ r, r < n.toNat → rowDefined s y r
  · exact Or.inl h
  · right
    push Not at h
    classical
    let r := Nat.find h
    obtain ⟨hr, hnd⟩ : r < n.toNat ∧ ¬ rowDefined s y r := Nat.find_spec h
    have hmin : ∀ q, q < r → rowDefined s y q := fun q hq => by
      by_contra hc
      exact Nat.find_min h hq ⟨by omega, hc⟩
    rcases (rowDefined_or s y r).resolve_left hnd with hgt | ⟨b, hb, hne, hy⟩
    · exact ⟨.dataOutOfRange (s.pc - 2#16), r, hr, hmin, Or.inl ⟨hgt, rfl⟩⟩
    · exact ⟨.fbRowOutOfRange (s.pc - 2#16), r, hr, hmin, Or.inr ⟨b, hb, hne, hy, rfl⟩⟩

end Sys2Proof.Machine
end

