-- ==== Sys2Proof/Laws/Ops.lean ====
section
/-! SUPPORT. One lemma per shared operation, saying everything it can do: fetching, the stack, the keypad, block transfers, the
timers, the step. -/

namespace Sys2Proof.Machine

/-! ## Fetch and step (30_encoding.md R45 to R47) -/

/-- A fetch inside the array composes the two bytes at PC, high byte first (R46). -/
theorem fetch_of_le (s : State) (h : s.pc.toNat ≤ 0xFFE) :
    fetch s = .ok (composeWord (s.mem.get s.pc.toNat) (s.mem.get (s.pc.toNat + 1))) := by
  rw [fetch, readBytes_of_le _ 2 _ (by omega)]
  simp [List.range_succ]

/-- A fetch that leaves the array is undefined U1 (R46). -/
theorem fetch_of_gt (s : State) (h : 0xFFE < s.pc.toNat) : fetch s = .error (.fetchOutOfRange s.pc) := by
  rw [fetch, readBytes_of_gt _ 2 _ (by omega) (by omega)]

/-- What a fetch answers, and where. -/
theorem fetch_eq_ok_iff (s : State) (w : Word) : fetch s = .ok w ↔
    s.pc.toNat ≤ 0xFFE ∧ w = composeWord (s.mem.get s.pc.toNat) (s.mem.get (s.pc.toNat + 1)) := by
  by_cases h : s.pc.toNat ≤ 0xFFE
  · rw [fetch_of_le s h]
    constructor
    · intro e; cases e; exact ⟨h, rfl⟩
    · rintro ⟨_, rfl⟩; rfl
  · rw [fetch_of_gt s (by omega)]
    constructor
    · intro e; cases e
    · rintro ⟨h', _⟩; exact absurd h' h

/-- Everything a step that completes can do (R45). -/
theorem step_next_iff (s t : State) : step s = .next t ↔
    ∃ w m, fetch s = .ok w ∧ exec (decodeWord w) s.advancePc = .next m ∧ t = m.epilogue := by
  constructor
  · intro h
    rw [step] at h
    split at h
    · rename_i w hw
      cases he : exec (decodeWord w) s.advancePc with
      | next m => rw [he] at h; cases h; exact ⟨w, m, hw, he, rfl⟩
      | fault f => rw [he] at h; cases h
      | refused r => rw [he] at h; cases h
    · cases h
  · rintro ⟨w, m, hw, he, rfl⟩
    rw [step, hw]; simp only [he]; rfl

/-- Everything a step that is undefined can be: a fetch out of range, or an instruction's own condition (R45). -/
theorem step_fault_iff (s : State) (f : Fault) : step s = .fault f ↔
    fetch s = .error f ∨ ∃ w, fetch s = .ok w ∧ exec (decodeWord w) s.advancePc = .fault f := by
  rw [step]
  cases hw : fetch s with
  | error g => simp
  | ok w =>
    simp only [false_or, reduceCtorEq, Except.ok.injEq, exists_eq_left']
    cases exec (decodeWord w) s.advancePc <;> simp [thenEpilogue]

/-! ## Timers (60_exceptions.md R118, R119) -/

/-- A counter goes down by one and stops at 0. -/
theorem countDown_toNat (c : Byte) : (countDown c).toNat = c.toNat - 1 := by
  by_cases h : c = 0#8
  · simp [countDown, h]
  · have hne : c.toNat ≠ 0 := fun e => h (BitVec.eq_of_toNat_eq (by simpa using e))
    have := c.isLt
    simp [countDown, h]
    omega

/-! ## Call stack (10_state.md R16) -/

theorem stackEntry_of_lt (s : State) (k : Fin 16) : s.stackEntry k.val = some s.stack[k.val] := by
  simp [State.stackEntry]

theorem stackEntry_of_ge (s : State) (k : Nat) (h : 16 ≤ k) : s.stackEntry k = none := by
  simp [State.stackEntry, h]

/-! ## Keypad (10_state.md R22; 47_key_wait.md R100) -/

theorem keyAt_of_lt (s : State) (k : Fin 16) : s.keyAt k.val = some s.key[k.val] := by simp [State.keyAt]

theorem keyAt_of_ge (s : State) (k : Nat) (h : 16 ≤ k) : s.keyAt k = none := by simp [State.keyAt, h]

theorem mem_pressedKeys (s : State) (k : Nat) : k ∈ s.pressedKeys ↔ ∃ h : k < 16, s.key[k] = true := by
  simp only [State.pressedKeys, List.mem_filter, List.mem_range, beq_iff_eq]
  constructor
  · rintro ⟨h, hk⟩
    exact ⟨h, by simpa [State.keyAt, h] using hk⟩
  · rintro ⟨h, hk⟩
    exact ⟨h, by simp [State.keyAt, h, hk]⟩

/-- The least pressed key (R100). -/
theorem lowestKey_eq_some_iff (s : State) (k : Nat) : s.lowestKey = some k ↔
    ∃ h : k < 16, s.key[k] = true ∧ ∀ j : Fin 16, j.val < k → s.key[j.val] = false := by
  have hsorted : s.pressedKeys.Pairwise (· < ·) := List.Pairwise.filter _ List.pairwise_lt_range
  constructor
  · intro h
    rw [State.lowestKey, List.head?_eq_some_iff] at h
    obtain ⟨ks, hks⟩ := h
    obtain ⟨hk, hon⟩ := (mem_pressedKeys s k).mp (by simp [hks])
    refine ⟨hk, hon, fun j hj => ?_⟩
    by_contra hne
    have hmem := (mem_pressedKeys s j.val).mpr ⟨j.isLt, by simpa using hne⟩
    rw [hks] at hmem hsorted
    rcases List.mem_cons.mp hmem with e | hm
    · omega
    · have := (List.pairwise_cons.mp hsorted).1 _ hm; omega
  · rintro ⟨hk, hon, hmin⟩
    have hmem := (mem_pressedKeys s k).mpr ⟨hk, hon⟩
    rw [State.lowestKey]
    cases hks : s.pressedKeys with
    | nil => rw [hks] at hmem; cases hmem
    | cons j ks =>
      obtain ⟨hj, hjon⟩ := (mem_pressedKeys s j).mp (by simp [hks])
      rw [hks] at hmem hsorted
      rcases List.mem_cons.mp hmem with rfl | hm
      · rfl
      · have hlt := (List.pairwise_cons.mp hsorted).1 _ hm
        have := hmin ⟨j, hj⟩ hlt
        simp only at this
        rw [hjon] at this; cases this

/-- No key is pressed (R100). -/
theorem lowestKey_eq_none_iff (s : State) : s.lowestKey = none ↔ ∀ j : Fin 16, s.key[j.val] = false := by
  rw [State.lowestKey, List.head?_eq_none_iff, List.eq_nil_iff_forall_not_mem]
  constructor
  · intro h j
    by_contra hne
    exact h j.val ((mem_pressedKeys s j.val).mpr ⟨j.isLt, by simpa using hne⟩)
  · intro h k hk
    obtain ⟨hlt, hon⟩ := (mem_pressedKeys s k).mp hk
    have := h ⟨k, hlt⟩
    simp only at this
    rw [hon] at this; cases this

/-! ## Operands and block transfers (45_memory_index.md R92 to R94) -/

@[simp] theorem zextAddr_toNat (nnn : Addr12) : (zextAddr nnn).toNat = nnn.toNat := by
  have := nnn.isLt
  simp [zextAddr]; omega

@[simp] theorem zextByte_toNat (b : Byte) : (zextByte b).toNat = b.toNat := by
  have := b.isLt
  simp [zextByte]; omega

@[simp] theorem glyphAddr_toNat (b : Byte) : (glyphAddr b).toNat = 0x50 + 5 * b.toNat := by
  have := b.isLt
  simp [glyphAddr, Config.glyphBase]; omega

@[simp] theorem regsUpTo_length (s : State) (x : Nibble) : (s.regsUpTo x).length = x.toNat + 1 := by simp [State.regsUpTo]

theorem regsUpTo_getElem? (s : State) (x k : Nibble) (h : k.toNat ≤ x.toNat) :
    (s.regsUpTo x)[k.toNat]? = some (s.getV k) := by
  have hk : k.toNat < x.toNat + 1 := by omega
  simp [State.regsUpTo, hk]

@[simp] theorem decimalDigits_length (b : Byte) : (decimalDigits b).length = 3 := rfl

/-- A block store inside the array (R92, R93). -/
theorem writeBlock_of_le (s : State) (a : Nat) (bs : List Byte) (h : a + bs.length ≤ 0x1000) :
    s.writeBlock a bs = .ok { s with mem := s.mem.putBytes a bs } := by
  rw [State.writeBlock, writeBytes_of_le _ _ _ h]

/-- A block store that leaves the array is undefined U2 as a whole (R92, R93). -/
theorem writeBlock_of_gt (s : State) (a : Nat) (bs : List Byte) (hne : bs ≠ []) (h : 0x1000 < a + bs.length) :
    s.writeBlock a bs = .error (.dataOutOfRange s.instrAddr) := by
  rw [State.writeBlock, writeBytes_of_gt _ _ _ hne h]

/-- A block load inside the array (R94). -/
theorem readBlock_of_le (s : State) (a n : Nat) (h : a + n ≤ 0x1000) :
    s.readBlock a n = .ok ((List.range n).map fun k => s.mem.get (a + k)) := by
  rw [State.readBlock, readBytes_of_le _ _ _ h]

/-- A block load that leaves the array is undefined U2 (R94). -/
theorem readBlock_of_gt (s : State) (a n : Nat) (hn : 0 < n) (h : 0x1000 < a + n) :
    s.readBlock a n = .error (.dataOutOfRange s.instrAddr) := by
  rw [State.readBlock, readBytes_of_gt _ _ _ hn h]

/-- A block put into memory changes its own bytes alone. -/
theorem changesOnly_putBytes (s : State) (a : Nat) (bs : List Byte) (h : a + bs.length ≤ 0x1000) :
    ChangesOnly (fun p => ∃ k, k < bs.length ∧ p = .mem (a + k)) s { s with mem := s.mem.putBytes a bs } := by
  apply changesOnly_intro <;> intros <;> try rfl
  case hmem b hb =>
    simp only
    rw [read_putBytes _ _ _ _ h, if_neg]
    rintro ⟨h1, h2⟩
    exact hb ⟨b - a, by omega, by rw [show a + (b - a) = b by omega]⟩

/-! ## Placing an instruction (log 13) -/

/-- The word that `placeWord` puts where the next step fetches is the word fetched. -/
theorem fetch_placeWord (s : State) (w : Word) : fetch (s.placeWord w) = .ok w := by
  have hle : s.placeAddr.toNat ≤ 0xFFE := by
    by_cases h : s.pc.toNat ≤ 0xFFE <;> simp [State.placeAddr, h, Config.pcReset]
  rw [fetch_eq_ok_iff]
  refine ⟨hle, ?_⟩
  have h1 : (s.placeWord w).mem.get (s.placeWord w).pc.toNat = w.extractLsb' 8 8 := by
    simp only [State.placeWord]
    rw [get_put_of_ne _ _ _ _ (by omega), get_put_self]
  have h2 : (s.placeWord w).mem.get ((s.placeWord w).pc.toNat + 1) = w.extractLsb' 0 8 := by
    simp only [State.placeWord]
    rw [get_put_self]
  rw [h1, h2, composeWord_bytes]

/-- The host's question, for every state and every word of the table: the next step runs exactly the decoded instruction. -/
theorem step_withFetchWord (s : State) (nbits w : Nat) : step (s.withFetchWord nbits w) =
    thenEpilogue (exec (decodeWord (tableWord nbits w)) (s.withFetchWord nbits w).advancePc) := by
  rw [step, State.withFetchWord, fetch_placeWord]

end Sys2Proof.Machine
end

