-- ==== Sys2Proof/Laws/Exec.lean ====
section
/-! SUPPORT. One lemma per meaning that can be undefined or that branches: everything it can do. The other meanings are one
equation each, by rfl. And the frames of the single-field updates. -/

namespace Sys2Proof.Machine

/-- `LD B` (45_memory_index.md R92). -/
theorem execLdB_cases (x : Nibble) (s : State) :
    (0xFFF < s.i.toNat + 2 ∧ execLdB x s = .fault (.dataOutOfRange (s.pc - 2#16))) ∨
    (s.i.toNat + 2 ≤ 0xFFF ∧ execLdB x s = .next { s with mem := s.mem.putBytes s.i.toNat (decimalDigits (s.getV x))}) := by
  by_cases h : s.i.toNat + 2 ≤ 0xFFF
  · right; refine ⟨h, ?_⟩
    rw [execLdB, State.dataAddr, writeBlock_of_le _ _ _ (by simp; omega)]; rfl
  · left; refine ⟨by omega, ?_⟩
    rw [execLdB, State.dataAddr, writeBlock_of_gt _ _ _ (by simp [decimalDigits]) (by simp; omega)]; rfl

/-- `LD [I], Vx` (45_memory_index.md R93). -/
theorem execStoreRegs_cases (x : Nibble) (s : State) :
    (0xFFF < s.i.toNat + x.toNat ∧ execStoreRegs x s = .fault (.dataOutOfRange (s.pc - 2#16))) ∨
    (s.i.toNat + x.toNat ≤ 0xFFF ∧ execStoreRegs x s = .next { s with mem := s.mem.putBytes s.i.toNat (s.regsUpTo x)}) := by
  by_cases h : s.i.toNat + x.toNat ≤ 0xFFF
  · right; refine ⟨h, ?_⟩
    rw [execStoreRegs, State.dataAddr, writeBlock_of_le _ _ _ (by simp; omega)]; rfl
  · left; refine ⟨by omega, ?_⟩
    rw [execStoreRegs, State.dataAddr, writeBlock_of_gt _ _ _ (by simp [State.regsUpTo]) (by simp; omega)]; rfl

/-- `LD Vx, [I]` (45_memory_index.md R94). -/
theorem execLoadRegs_cases (x : Nibble) (s : State) :
    (0xFFF < s.i.toNat + x.toNat ∧ execLoadRegs x s = .fault (.dataOutOfRange (s.pc - 2#16))) ∨
    (s.i.toNat + x.toNat ≤ 0xFFF ∧ execLoadRegs x s = .next (s.setVFrom 0 ((List.range (x.toNat+1)).map fun k => s.mem.get (s.i.toNat + k)))) := by
  by_cases h : s.i.toNat + x.toNat ≤ 0xFFF
  · right; refine ⟨h, ?_⟩
    rw [execLoadRegs, State.dataAddr, readBlock_of_le _ _ _ (by omega)]; rfl
  · left; refine ⟨by omega, ?_⟩
    rw [execLoadRegs, State.dataAddr, readBlock_of_gt _ _ _ (by omega) (by omega)]; rfl

/-- `RET` (40_control_transfer.md R62). -/
theorem execRet_cases (s : State) : (s.sp.toNat = 0 ∧ execRet s = .fault (.stackUnderflow (s.pc - 2#16))) ∨
    (16 < s.sp.toNat ∧ execRet s = .fault (.stackEntryMissing (s.pc - 2#16))) ∨
    (∃ k : Fin 16, k.val + 1 = s.sp.toNat ∧ execRet s = .next {s with sp := s.sp - 1#8, pc := s.stack[k.val]}) := by
  by_cases h : s.sp = 0#8
  · left; refine ⟨by simp [h], by simp [execRet, h]; rfl⟩
  · right
    have : s.sp.toNat ≠ 0 := fun e => h (BitVec.eq_of_toNat_eq (by simpa using e))
    by_cases h2 : 16 < s.sp.toNat
    · left; refine ⟨h2, ?_⟩
      rw [execRet, if_neg h, stackEntry_of_ge _ _ (by omega)]; rfl
    · right; refine ⟨⟨s.sp.toNat - 1, by omega⟩, by simp; omega, ?_⟩
      rw [execRet, if_neg h, stackEntry_of_lt s ⟨s.sp.toNat - 1, by omega⟩]

/-- `CALL` (40_control_transfer.md R61). -/
theorem execCall_cases (nnn : Addr12) (s : State) : (16 ≤ s.sp.toNat ∧ execCall nnn s = .fault (.stackOverflow (s.pc - 2#16))) ∨
    (s.sp.toNat < 16 ∧ execCall nnn s = .next { s.setStackEntry s.sp.toNat s.pc with sp := s.sp + 1#8, pc := zextAddr nnn }) := by
  by_cases h : 16 ≤ s.sp.toNat
  · left; exact ⟨h, by rw [execCall, if_pos h]; rfl⟩
  · right; exact ⟨by omega, by rw [execCall, if_neg h]⟩

/-- `SKP` (41_conditional_skip.md R69). -/
theorem execSkp_cases (x : Nibble) (s : State) : (15 < (s.getV x).toNat ∧ execSkp x s = .fault (.keyIndexOutOfRange (s.pc - 2#16))) ∨
    (∃ k : Fin 16, k.val = (s.getV x).toNat ∧ execSkp x s = .next (s.skipIf s.key[k.val])) := by
  by_cases h : 15 < (s.getV x).toNat
  · left; exact ⟨h, by rw [execSkp, keyAt_of_ge _ _ h]; rfl⟩
  · right; exact ⟨⟨(s.getV x).toNat, by omega⟩, rfl, by rw [execSkp, keyAt_of_lt s ⟨(s.getV x).toNat, by omega⟩]⟩

/-- `SKNP` (41_conditional_skip.md R70). -/
theorem execSknp_cases (x : Nibble) (s : State) : (15 < (s.getV x).toNat ∧ execSknp x s = .fault (.keyIndexOutOfRange (s.pc - 2#16))) ∨
    (∃ k : Fin 16, k.val = (s.getV x).toNat ∧ execSknp x s = .next (s.skipIf (!s.key[k.val]))) := by
  by_cases h : 15 < (s.getV x).toNat
  · left; exact ⟨h, by rw [execSknp, keyAt_of_ge _ _ h]; rfl⟩
  · right; exact ⟨⟨(s.getV x).toNat, by omega⟩, rfl, by rw [execSknp, keyAt_of_lt s ⟨(s.getV x).toNat, by omega⟩]⟩

/-- `LD Vx, K` (47_key_wait.md R100). -/
theorem execLdVxK_cases (x : Nibble) (s : State) : ((∀ k : Fin 16, s.key[k.val] = false) ∧ execLdVxK x s = .next {s with pc := s.pc - 2#16}) ∨
    (∃ k : Fin 16, s.key[k.val] = true ∧ (∀ j : Fin 16, j.val < k.val → s.key[j.val] = false) ∧ execLdVxK x s = .next (s.setV x (BitVec.ofNat 8 k.val))) := by
  rw [execLdVxK]
  cases h : s.lowestKey with
  | none => left; exact ⟨(lowestKey_eq_none_iff s).mp h, rfl⟩
  | some k => 
    obtain ⟨hk, h1, h2⟩ := (lowestKey_eq_some_iff s k).mp h
    right; exact ⟨⟨k, hk⟩, h1, h2, rfl⟩

/-! ## Frames of the single-field updates -/

section SingleField
variable (s : State)

theorem changesOnly_pc (w : Word) :
    ChangesOnly (fun p => p = .pc) s { s with pc := w } := by
  apply changesOnly_intro <;> intros <;> first | rfl | simp_all

theorem changesOnly_i (w : Word) :
    ChangesOnly (fun p => p = .i) s { s with i := w } := by
  apply changesOnly_intro <;> intros <;> first | rfl | simp_all

theorem changesOnly_dt (w : Byte) :
    ChangesOnly (fun p => p = .dt) s { s with dt := w } := by
  apply changesOnly_intro <;> intros <;> first | rfl | simp_all

theorem changesOnly_st (w : Byte) :
    ChangesOnly (fun p => p = .st) s { s with st := w } := by
  apply changesOnly_intro <;> intros <;> first | rfl | simp_all

theorem changesOnly_draw (w : Nat) :
    ChangesOnly (fun p => p = .draw) s { s with draw := w } := by
  apply changesOnly_intro <;> intros <;> first | rfl | simp_all

theorem changesOnly_sp_pc (w : Word) (a : Byte) :
    ChangesOnly (fun p => p = .sp ∨ p = .pc) s { s with sp := a, pc := w } := by
  apply changesOnly_intro <;> intros <;> first | rfl | simp_all

theorem changesOnly_fb (f : Frame) (C : Fin 32 → Fin 64 → Prop) (h : ∀ y x, ¬ C y x → f.read y x = s.fb.read y x) :
    ChangesOnly (fun p => ∃ y x, C y x ∧ p = .pixel y x) s { s with fb := f } := by
  apply changesOnly_intro <;> intros <;> try rfl
  rename_i y x hh
  exact h y x fun hc => hh ⟨y, x, hc, rfl⟩

theorem changesOnly_push (k : Fin 16) (hk : k.val = s.sp.toNat) (a : Byte) (b : Word) :
    ChangesOnly (fun p => p = .stack k ∨ p = .sp ∨ p = .pc) s { s.setStackEntry s.sp.toNat s.pc with sp := a, pc := b } := by
  apply changesOnly_intro <;> intros <;> try rfl
  · simp_all
  · simp_all
  · rename_i j hj
    simp only [setStackEntry_stack]
    rw [if_neg]; intro e; apply hj; left; congr; exact Fin.ext (by omega)

theorem changesOnly_setVFrom (x : Nibble) (bs : List Byte) (h : bs.length = x.toNat + 1) :
    ChangesOnly (fun p => ∃ k : Nibble, k.toNat ≤ x.toNat ∧ p = .v k) s (s.setVFrom 0 bs) := by
  have := x.isLt
  apply changesOnly_intro <;> intros <;> try simp
  rename_i y hy
  rw [getV_setVFrom _ _ _ (by omega)]
  rw [if_pos (by omega), List.getElem?_eq_none]; rfl
  rw [h]; by_contra hc; exact hy ⟨y, by omega, rfl⟩

end SingleField

end Sys2Proof.Machine
end

