-- ==== Sys2Proof/Laws/PerInstr.lean ====
section
/-! SUPPORT. The per-instruction family RowClass: the word of a well-formed instruction lies in its own row of
spec/opcode_table.json, by the row's mask and match, so that no two instructions share a word (30_encoding.md R51 to R56, R58). -/

namespace Sys2Proof.Laws.RowClass

/-- The word lies in the instruction's row: `w & mask = match`; for `nop`, one of the 282 unassigned rows. -/
def InRow : Instr → Word → Prop
  | .cls _, w => w &&& 0xF00F#16 = 0x0000#16
  | .ret _, w => w &&& 0xF00F#16 = 0x000E#16
  | .jp _, w => w &&& 0xF000#16 = 0x1000#16
  | .call _, w => w &&& 0xF000#16 = 0x2000#16
  | .seImm _ _, w => w &&& 0xF000#16 = 0x3000#16
  | .sneImm _ _, w => w &&& 0xF000#16 = 0x4000#16
  | .seReg _ _ _, w => w &&& 0xF000#16 = 0x5000#16
  | .ldImm _ _, w => w &&& 0xF000#16 = 0x6000#16
  | .addImm _ _, w => w &&& 0xF000#16 = 0x7000#16
  | .ldReg _ _, w => w &&& 0xF00F#16 = 0x8000#16
  | .orReg _ _, w => w &&& 0xF00F#16 = 0x8001#16
  | .andReg _ _, w => w &&& 0xF00F#16 = 0x8002#16
  | .xorReg _ _, w => w &&& 0xF00F#16 = 0x8003#16
  | .addReg _ _, w => w &&& 0xF00F#16 = 0x8004#16
  | .subReg _ _, w => w &&& 0xF00F#16 = 0x8005#16
  | .shr _ _, w => w &&& 0xF00F#16 = 0x8006#16
  | .subn _ _, w => w &&& 0xF00F#16 = 0x8007#16
  | .shl _ _, w => w &&& 0xF00F#16 = 0x800E#16
  | .sneReg _ _ _, w => w &&& 0xF000#16 = 0x9000#16
  | .ldI _, w => w &&& 0xF000#16 = 0xA000#16
  | .jpV0 _, w => w &&& 0xF000#16 = 0xB000#16
  | .rnd _ _, w => w &&& 0xF000#16 = 0xC000#16
  | .drw _ _ _, w => w &&& 0xF000#16 = 0xD000#16
  | .sknp _ _, w => w &&& 0xF00F#16 = 0xE001#16
  | .skp _ _, w => w &&& 0xF00F#16 = 0xE00E#16
  | .ldVxDt _, w => w &&& 0xF0FF#16 = 0xF007#16
  | .ldVxK _, w => w &&& 0xF0FF#16 = 0xF00A#16
  | .ldDtVx _, w => w &&& 0xF0FF#16 = 0xF015#16
  | .ldStVx _, w => w &&& 0xF0FF#16 = 0xF018#16
  | .addI _, w => w &&& 0xF0FF#16 = 0xF01E#16
  | .ldF _, w => w &&& 0xF0FF#16 = 0xF029#16
  | .ldB _, w => w &&& 0xF0FF#16 = 0xF033#16
  | .storeRegs _, w => w &&& 0xF0FF#16 = 0xF055#16
  | .loadRegs _, w => w &&& 0xF0FF#16 = 0xF065#16
  | .nop _, w => isUnassigned w = true

/-- The family's statement about one instruction. -/
def Statement (i : Instr) : Prop := i.wellFormed = true → InRow i (encodeWord i)

section Masks
variable (a b c d : Nibble) (k : Byte) (l : Addr12)

theorem mask_packXYN (a' b' c' d' : Nibble) :
    packXYN a b c d &&& packXYN a' b' c' d' = packXYN (a &&& a') (b &&& b') (c &&& c') (d &&& d') := by
  apply BitVec.eq_of_getLsbD_eq
  intro i _
  simp only [BitVec.getLsbD_and, getLsbD_packXYN]
  split <;> [rfl; split <;> [rfl; split <;> rfl]]

theorem mask_packXKK (a' b' : Nibble) (k' : Byte) :
    packXKK a b k &&& packXKK a' b' k' = packXKK (a &&& a') (b &&& b') (k &&& k') := by
  apply BitVec.eq_of_getLsbD_eq
  intro i _
  simp only [BitVec.getLsbD_and, getLsbD_packXKK]
  split <;> [rfl; split <;> rfl]

theorem mask_packNNN (a' : Nibble) (l' : Addr12) : packNNN a l &&& packNNN a' l' = packNNN (a &&& a') (l &&& l') := by
  apply BitVec.eq_of_getLsbD_eq
  intro i _
  simp only [BitVec.getLsbD_and, getLsbD_packNNN]
  split <;> rfl

theorem mask_packZ (k' : Byte) (d' : Nibble) : packZ k d &&& packZ k' d' = packZ (k &&& k') (d &&& d') := by
  apply BitVec.eq_of_getLsbD_eq
  intro i _
  simp only [BitVec.getLsbD_and, getLsbD_packZ]
  split <;> [rfl; split <;> rfl]

/-- Mask F000 keeps the leading nibble. -/
theorem packXKK_F000 : packXKK a b k &&& 0xF000#16 = packXKK a 0#4 0#8 := by
  rw [show (0xF000#16 : Word) = packXKK 0xF#4 0#4 0#8 by decide, mask_packXKK]
  congr 1
  · exact BitVec.and_allOnes (x := a)
  · simp
  · simp

/-- Mask F000 keeps the leading nibble. -/
theorem packXYN_F000 : packXYN a b c d &&& 0xF000#16 = packXYN a 0#4 0#4 0#4 := by
  rw [show (0xF000#16 : Word) = packXYN 0xF#4 0#4 0#4 0#4 by decide, mask_packXYN]
  congr 1
  · exact BitVec.and_allOnes (x := a)
  all_goals simp

/-- Mask F000 keeps the leading nibble. -/
theorem packNNN_F000 : packNNN a l &&& 0xF000#16 = packNNN a 0#12 := by
  rw [show (0xF000#16 : Word) = packNNN 0xF#4 0#12 by decide, mask_packNNN]
  congr 1
  · exact BitVec.and_allOnes (x := a)
  · simp

/-- Mask F00F keeps the leading and the trailing nibble. -/
theorem packXYN_F00F : packXYN a b c d &&& 0xF00F#16 = packXYN a 0#4 0#4 d := by
  rw [show (0xF00F#16 : Word) = packXYN 0xF#4 0#4 0#4 0xF#4 by decide, mask_packXYN]
  congr 1
  · exact BitVec.and_allOnes (x := a)
  · simp
  · simp
  · exact BitVec.and_allOnes (x := d)

/-- Mask F0FF keeps the leading nibble and the trailing byte. -/
theorem packXKK_F0FF : packXKK a b k &&& 0xF0FF#16 = packXKK a 0#4 k := by
  rw [show (0xF0FF#16 : Word) = packXKK 0xF#4 0#4 0xFF#8 by decide, mask_packXKK]
  congr 1
  · exact BitVec.and_allOnes (x := a)
  · simp
  · exact BitVec.and_allOnes (x := k)

/-- Mask F00F keeps the trailing nibble of a word of group 0. -/
theorem packZ_F00F : packZ k d &&& 0xF00F#16 = packZ 0#8 d := by
  rw [show (0xF00F#16 : Word) = packZ 0#8 0xF#4 ||| 0xF000#16 by decide]
  apply BitVec.eq_of_getLsbD_eq
  intro i hi
  have hF : ∀ j, j < 16 → (0xF000#16 : Word).getLsbD j = decide (12 ≤ j) := by decide
  rw [BitVec.getLsbD_and, BitVec.getLsbD_or, hF i hi, getLsbD_packZ, getLsbD_packZ, getLsbD_packZ]
  by_cases h1 : i < 4
  · have hd : ∀ j, j < 4 → (0xF#4 : Nibble).getLsbD j = true := by decide
    simp [h1, hd i h1]
  · by_cases h2 : i - 4 < 8
    · simp [h1, h2, show ¬ 12 ≤ i by omega]
    · simp [h1, h2]

end Masks

theorem cls (ign : Byte) : Statement (.cls ign) := fun _ => (packZ_F00F ..).trans rfl

theorem ret (ign : Byte) : Statement (.ret ign) := fun _ => (packZ_F00F ..).trans rfl

theorem jp (nnn : Addr12) : Statement (.jp nnn) := fun _ => (packNNN_F000 ..).trans rfl

theorem call (nnn : Addr12) : Statement (.call nnn) := fun _ => (packNNN_F000 ..).trans rfl

theorem seImm (x : Nibble) (kk : Byte) : Statement (.seImm x kk) := fun _ => (packXKK_F000 ..).trans rfl

theorem sneImm (x : Nibble) (kk : Byte) : Statement (.sneImm x kk) := fun _ => (packXKK_F000 ..).trans rfl

theorem seReg (x : Nibble) (y : Nibble) (ign : Nibble) : Statement (.seReg x y ign) := fun _ => (packXYN_F000 ..).trans rfl

theorem ldImm (x : Nibble) (kk : Byte) : Statement (.ldImm x kk) := fun _ => (packXKK_F000 ..).trans rfl

theorem addImm (x : Nibble) (kk : Byte) : Statement (.addImm x kk) := fun _ => (packXKK_F000 ..).trans rfl

theorem ldReg (x : Nibble) (y : Nibble) : Statement (.ldReg x y) := fun _ => (packXYN_F00F ..).trans rfl

theorem orReg (x : Nibble) (y : Nibble) : Statement (.orReg x y) := fun _ => (packXYN_F00F ..).trans rfl

theorem andReg (x : Nibble) (y : Nibble) : Statement (.andReg x y) := fun _ => (packXYN_F00F ..).trans rfl

theorem xorReg (x : Nibble) (y : Nibble) : Statement (.xorReg x y) := fun _ => (packXYN_F00F ..).trans rfl

theorem addReg (x : Nibble) (y : Nibble) : Statement (.addReg x y) := fun _ => (packXYN_F00F ..).trans rfl

theorem subReg (x : Nibble) (y : Nibble) : Statement (.subReg x y) := fun _ => (packXYN_F00F ..).trans rfl

theorem shr (x : Nibble) (y : Nibble) : Statement (.shr x y) := fun _ => (packXYN_F00F ..).trans rfl

theorem subn (x : Nibble) (y : Nibble) : Statement (.subn x y) := fun _ => (packXYN_F00F ..).trans rfl

theorem shl (x : Nibble) (y : Nibble) : Statement (.shl x y) := fun _ => (packXYN_F00F ..).trans rfl

theorem sneReg (x : Nibble) (y : Nibble) (ign : Nibble) : Statement (.sneReg x y ign) := fun _ => (packXYN_F000 ..).trans rfl

theorem ldI (nnn : Addr12) : Statement (.ldI nnn) := fun _ => (packNNN_F000 ..).trans rfl

theorem jpV0 (nnn : Addr12) : Statement (.jpV0 nnn) := fun _ => (packNNN_F000 ..).trans rfl

theorem rnd (x : Nibble) (kk : Byte) : Statement (.rnd x kk) := fun _ => (packXKK_F000 ..).trans rfl

theorem drw (x : Nibble) (y : Nibble) (n : Nibble) : Statement (.drw x y n) := fun _ => (packXYN_F000 ..).trans rfl

theorem sknp (x : Nibble) (ign : Nibble) : Statement (.sknp x ign) := fun _ => (packXYN_F00F ..).trans rfl

theorem skp (x : Nibble) (ign : Nibble) : Statement (.skp x ign) := fun _ => (packXYN_F00F ..).trans rfl

theorem ldVxDt (x : Nibble) : Statement (.ldVxDt x) := fun _ => (packXKK_F0FF ..).trans rfl

theorem ldVxK (x : Nibble) : Statement (.ldVxK x) := fun _ => (packXKK_F0FF ..).trans rfl

theorem ldDtVx (x : Nibble) : Statement (.ldDtVx x) := fun _ => (packXKK_F0FF ..).trans rfl

theorem ldStVx (x : Nibble) : Statement (.ldStVx x) := fun _ => (packXKK_F0FF ..).trans rfl

theorem addI (x : Nibble) : Statement (.addI x) := fun _ => (packXKK_F0FF ..).trans rfl

theorem ldF (x : Nibble) : Statement (.ldF x) := fun _ => (packXKK_F0FF ..).trans rfl

theorem ldB (x : Nibble) : Statement (.ldB x) := fun _ => (packXKK_F0FF ..).trans rfl

theorem storeRegs (x : Nibble) : Statement (.storeRegs x) := fun _ => (packXKK_F0FF ..).trans rfl

theorem loadRegs (x : Nibble) : Statement (.loadRegs x) := fun _ => (packXKK_F0FF ..).trans rfl

theorem nop (w : Word) : Statement (.nop w) := fun h => h

end Sys2Proof.Laws.RowClass
end

