-- ==== Sys2Proof/Laws/Run.lean ====
section
/-! SUPPORT. Steps one after another: what a fetched word makes of a step, runs step by step, what a fetch depends on, and what the
operations of the host and of the placing do to memory. -/

namespace Sys2Proof.Machine

/-- A step whose instruction completes (30_encoding.md R45). -/
theorem step_next (s m : State) (w : Word) (hw : fetch s = .ok w) (h : exec (decodeWord w) s.advancePc = .next m) :
    step s = .next m.epilogue := (step_next_iff _ _).mpr ⟨w, m, hw, h, rfl⟩

/-- The bytes a fetch reads make its word, high byte first (30_encoding.md R46). -/
theorem fetch_of_read (s : State) (hi lo : Byte) (h : s.mem.read s.pc.toNat = some hi) (h' : s.mem.read (s.pc.toNat + 1) = some lo) :
    fetch s = .ok (composeWord hi lo) := by
  obtain ⟨_, rfl⟩ := (read_eq_some_iff _ _ _).mp h
  obtain ⟨hle, rfl⟩ := (read_eq_some_iff _ _ _).mp h'
  exact fetch_of_le s (by omega)

/-- A fetch depends on `PC` and memory alone (30_encoding.md R46). -/
theorem fetch_congr {s t : State} (hm : ∀ a, t.mem.read a = s.mem.read a) (hp : t.pc = s.pc) : fetch t = fetch s := by
  by_cases h : s.pc.toNat ≤ 0xFFE
  · have h1 := hm s.pc.toNat
    have h2 := hm (s.pc.toNat + 1)
    rw [read_of_lt _ _ (by omega), read_of_lt _ _ (by omega)] at h1 h2
    rw [fetch_of_le s h, fetch_of_le t (by rw [hp]; exact h), hp, Option.some.inj h1, Option.some.inj h2]
  · rw [fetch_of_gt s (by omega), fetch_of_gt t (by rw [hp]; omega), hp]

/-- A run of one more step, taken first. -/
theorem run_succ (n : Nat) (s t : State) (h : step s = .next t) : Host.Core.run core (n + 1) s = Host.Core.run core n t := by
  simp only [Host.Core.run]
  rw [show core.step s = .next t from h]

/-- A run of one more step, taken last. -/
theorem run_snoc (n : Nat) : ∀ s t u : State, Host.Core.run core n s = .next t → step t = .next u →
    Host.Core.run core (n + 1) s = .next u := by
  induction n with
  | zero => intro s t u h h'; cases h; exact (run_succ 0 s u h').trans rfl
  | succ n ih =>
    intro s t u h h'
    cases hs : step s with
    | next r => rw [run_succ n s r hs] at h; rw [run_succ (n + 1) s r hs]; exact ih r t u h h'
    | fault r => simp only [Host.Core.run] at h; rw [show core.step s = .fault r from hs] at h; cases h
    | refused r => simp only [Host.Core.run] at h; rw [show core.step s = .refused r from hs] at h; cases h

/-- A load that fits (70_reset_and_hazards.md R132). -/
theorem hostLoad_of_le (image : List Byte) (s : State) (h : image.length ≤ 3584) :
    hostLoad image s = .next { s with mem := s.mem.putBytes 0x200 image } := by
  rw [hostLoad, writeBytes_of_le _ _ _ (by simp [Config.progBase]; omega)]

/-- A load keeps the canonical form of memory (log 12). -/
theorem wf_hostLoad (image : List Byte) (s t : State) (hs : s.mem.wf) (h : hostLoad image s = .next t) : t.mem.wf := by
  rw [hostLoad] at h
  cases hm : s.mem.writeBytes Config.progBase image with
  | none => rw [hm] at h; cases h
  | some m => rw [hm] at h; cases h; exact wf_writeBytes _ _ _ _ hs hm

/-- Placing an instruction keeps the canonical form of memory (log 12, 13). -/
theorem wf_placeWord (s : State) (w : Word) (hs : s.mem.wf) : (s.placeWord w).mem.wf := by
  have hle : s.placeAddr.toNat ≤ 0xFFE := by
    by_cases h : s.pc.toNat ≤ 0xFFE <;> simp [State.placeAddr, h, Config.pcReset]
  exact wf_put _ _ _ (by omega) (wf_put _ _ _ (by omega) hs)

/-- What reset memory reads as (20_memory.md R31, R32). -/
theorem reset_mem_read (a : Nat) (h : a ≤ 0xFFF) : State.reset.mem.read a = some (Memory.initial a) := read_of_lt _ _ h

/-- Memory is zero after reset outside the glyph table (20_memory.md R31). -/
theorem initial_zero (a : Nat) (h : a < 0x50 ∨ 0x9F < a) : Memory.initial a = 0#8 := by
  rw [Memory.initial, if_neg (by simp [Config.glyphBase, Config.glyphSize]; omega)]

/-- Memory is the glyph table at 0x050..0x09F (20_memory.md R32). -/
theorem initial_glyph (k : Nat) (h : k < 80) : Memory.initial (0x50 + k) = defaultGlyph.getD k 0#8 := by
  rw [Memory.initial, if_pos (by simp [Config.glyphBase, Config.glyphSize]; omega)]
  congr 1; simp [Config.glyphBase]

/-- The sprite scan depends on memory, `I` and `PC` alone (48_draw.md R104). -/
theorem rows_congr (s t : State) (hm : t.mem = s.mem) (hi : t.i = s.i) (hp : t.pc = s.pc) (ox oy : Nat) (rs : List Nat) :
    ∀ sc : Scan, sc.rows t ox oy rs = sc.rows s ox oy rs := by
  induction rs with
  | nil => intro sc; rfl
  | cons r rs ih =>
    intro sc
    simp only [Scan.rows, State.readData, State.dataAddr, hm, hi, State.instrAddr, hp]
    split <;> try rfl
    split <;> try rfl
    exact ih _

end Sys2Proof.Machine
end

