-- ==== Sys2Proof/Tests/Slice0.lean ====
section
/-! SUPPORT. Tests of the model. Every expected result comes from the spec: the examples of the rule files, or a vector of
95_test_vectors.md named by its id (E1, T3, A7, ...). Then one witness per statement that has hypotheses. -/

namespace Sys2Proof.Tests

open Sys2Proof.Machine

/-! ## Helpers -/

/-- What `f` sees of a next state. -/
def pick {α : Type} (o : Host.Outcome State Fault Refusal) (f : State → α) : Option α :=
  match o with
  | .next t => some (f t)
  | _ => none

/-- The fault an outcome is. -/
def faultOf (o : Host.Outcome State Fault Refusal) : Option Fault :=
  match o with
  | .fault f => some f
  | _ => none

/-- One step of the word `w` at 0x200, as the vectors' conventions say. -/
def run1 (w : Nat) (s : State) : Host.Outcome State Fault Refusal := step (s.withFetchWord 16 w)

/-- Reset with some registers set. -/
def regs (l : List (Nibble × Byte)) (s : State := State.reset) : State := l.foldl (fun s p => s.setV p.1 p.2) s

/-- With bytes put in memory. -/
def bytesAt (a : Nat) (bs : List Byte) (s : State := State.reset) : State := { s with mem := s.mem.putBytes a bs }

/-- With keys pressed. -/
def keys (l : List (Fin 16)) (s : State := State.reset) : State := l.foldl (fun s k => hostSetKey k true s) s

/-- With pixels flipped, as (column, row). -/
def lit (l : List (Fin 64 × Fin 32)) (s : State := State.reset) : State :=
  l.foldl (fun s p => { s with fb := s.fb.flip p.2 p.1 }) s

/-- The pixels that are on, as (column, row), row by row. -/
def onPixels (s : State) : List (Nat × Nat) :=
  (List.finRange 32).flatMap fun y => ((List.finRange 64).filter fun x => s.fb.read y x).map fun x => (x.val, y.val)

/-- The outcome is a next state. -/
def isNext (o : Host.Outcome State Fault Refusal) : Bool := (pick o fun _ => ()).isSome

theorem next_of_isNext {o : Host.Outcome State Fault Refusal} (h : isNext o = true) : ∃ t, o = .next t := by
  cases o with
  | next t => exact ⟨t, rfl⟩
  | fault f => cases h
  | refused r => cases h

/-- The fetch answers this word. -/
def fetches (s : State) (w : Word) : Bool :=
  match fetch s with
  | .ok v => v == w
  | .error _ => false

theorem fetch_of_fetches {s : State} {w : Word} (h : fetches s w = true) : fetch s = .ok w := by
  rw [fetches] at h
  cases hf : fetch s with
  | ok v => rw [hf] at h; simp only [beq_iff_eq] at h; rw [h]
  | error f => rw [hf] at h; cases h

/-! ## Well-formedness: a `nop` may carry an unassigned word only (30_encoding.md R56) -/

theorem test_wf_refuses_cls_word : (Instr.nop 0x00E0#16).wellFormed = false := by decide
theorem test_wf_refuses_ret_word : (Instr.nop 0x012E#16).wellFormed = false := by decide
theorem test_wf_refuses_group8_words :
    (Instr.nop 0x8120#16).wellFormed = false ∧ (Instr.nop 0x8127#16).wellFormed = false ∧ (Instr.nop 0x812E#16).wellFormed = false := by
  decide
theorem test_wf_refuses_groupE_words : (Instr.nop 0xE39E#16).wellFormed = false ∧ (Instr.nop 0xE3A1#16).wellFormed = false := by decide
theorem test_wf_refuses_groupF_words : (Instr.nop 0xF307#16).wellFormed = false ∧ (Instr.nop 0xF365#16).wellFormed = false := by decide
theorem test_wf_refuses_primary_words : (Instr.nop 0x1200#16).wellFormed = false ∧ (Instr.nop 0xD125#16).wellFormed = false := by decide
/-- E5, E11, E12, E13, E14, E15, E16. -/
theorem test_wf_accepts_unassigned_words :
    (Instr.nop 0x0001#16).wellFormed = true ∧ (Instr.nop 0xE39F#16).wellFormed = true ∧ (Instr.nop 0x8128#16).wellFormed = true ∧
    (Instr.nop 0x812F#16).wellFormed = true ∧ (Instr.nop 0xF000#16).wellFormed = true ∧ (Instr.nop 0xF375#16).wellFormed = true ∧
    (Instr.nop 0xFFFF#16).wellFormed = true := by decide

/-! ## Decoding: every constructor, from the bits 30_encoding.md R51 to R56 give (R48 for the fields) -/

theorem test_decode_group0 :
    decodeTableWord 16 0b0000000011100000 = some (.cls 0x0E#8) ∧ decodeTableWord 16 0b0000111111110000 = some (.cls 0xFF#8) ∧
    decodeTableWord 16 0b0000000011101110 = some (.ret 0x0E#8) ∧ decodeTableWord 16 0b0000000100100011 = some (.nop 0x0123#16) := by
  decide
theorem test_decode_control :
    decodeTableWord 16 0b0001101010111100 = some (.jp 0xABC#12) ∧ decodeTableWord 16 0b0010101010111100 = some (.call 0xABC#12) ∧
    decodeTableWord 16 0b1011001100000100 = some (.jpV0 0x304#12) := by decide
theorem test_decode_skips :
    decodeTableWord 16 0b0011101001000010 = some (.seImm 0xA#4 0x42#8) ∧
    decodeTableWord 16 0b0100101001000011 = some (.sneImm 0xA#4 0x43#8) ∧
    decodeTableWord 16 0b0101101010110111 = some (.seReg 0xA#4 0xB#4 0x7#4) ∧
    decodeTableWord 16 0b1001101010111111 = some (.sneReg 0xA#4 0xB#4 0xF#4) ∧
    decodeTableWord 16 0b1110001110011110 = some (.skp 0x3#4 0x9#4) ∧
    decodeTableWord 16 0b1110001110100001 = some (.sknp 0x3#4 0xA#4) := by decide
theorem test_decode_transfer :
    decodeTableWord 16 0b0110000010011101 = some (.ldImm 0x0#4 0x9D#8) ∧
    decodeTableWord 16 0b0111000011111111 = some (.addImm 0x0#4 0xFF#8) ∧
    decodeTableWord 16 0b1000000101000000 = some (.ldReg 0x1#4 0x4#4) := by decide
theorem test_decode_alu :
    decodeTableWord 16 0b1000000100100001 = some (.orReg 0x1#4 0x2#4) ∧ decodeTableWord 16 0b1000000100100010 = some (.andReg 0x1#4 0x2#4) ∧
    decodeTableWord 16 0b1000000100100011 = some (.xorReg 0x1#4 0x2#4) ∧ decodeTableWord 16 0b1000000100100100 = some (.addReg 0x1#4 0x2#4) ∧
    decodeTableWord 16 0b1000000100100101 = some (.subReg 0x1#4 0x2#4) ∧ decodeTableWord 16 0b1000000101010110 = some (.shr 0x1#4 0x5#4) ∧
    decodeTableWord 16 0b1000000100100111 = some (.subn 0x1#4 0x2#4) ∧ decodeTableWord 16 0b1000000100101110 = some (.shl 0x1#4 0x2#4) := by
  decide
theorem test_decode_index_random_draw :
    decodeTableWord 16 0b1010001100000000 = some (.ldI 0x300#12) ∧ decodeTableWord 16 0b1100001100001111 = some (.rnd 0x3#4 0x0F#8) ∧
    decodeTableWord 16 0b1101000100100101 = some (.drw 0x1#4 0x2#4 0x5#4) := by decide
theorem test_decode_groupF :
    decodeTableWord 16 0b1111000100000111 = some (.ldVxDt 0x1#4) ∧ decodeTableWord 16 0b1111001000001010 = some (.ldVxK 0x2#4) ∧
    decodeTableWord 16 0b1111000000010101 = some (.ldDtVx 0x0#4) ∧ decodeTableWord 16 0b1111010000011000 = some (.ldStVx 0x4#4) ∧
    decodeTableWord 16 0b1111001000011110 = some (.addI 0x2#4) ∧ decodeTableWord 16 0b1111000000101001 = some (.ldF 0x0#4) ∧
    decodeTableWord 16 0b1111000000110011 = some (.ldB 0x0#4) ∧ decodeTableWord 16 0b1111000101010101 = some (.storeRegs 0x1#4) ∧
    decodeTableWord 16 0b1111001001100101 = some (.loadRegs 0x2#4) ∧ decodeTableWord 16 0b1111001101110101 = some (.nop 0xF375#16) := by
  decide
/-- Two bytes are needed (R48). -/
theorem test_decode_needs_two_bytes : decode [] = .error .tooFewBytes ∧ decode [0x60#8] = .error .tooFewBytes := ⟨rfl, rfl⟩
/-- P2's words, encoded. -/
theorem test_encode : encode (.ldImm 0x0#4 0x9D#8) = [0x60#8, 0x9D#8] ∧ encode (.call 0x210#12) = [0x22#8, 0x10#8] ∧
    encode (.ldB 0x0#4) = [0xF0#8, 0x33#8] := by decide

/-! ## The memory's canonical form (log 12) -/

theorem test_memory_wf_refuses :
    ¬ Memory.wf [(0x300, 1#8), (0x2FF, 1#8)] ∧ ¬ Memory.wf [(0x300, 1#8), (0x300, 2#8)] ∧ ¬ Memory.wf [(0x300, 0#8)] ∧
    ¬ Memory.wf [(0x050, 0xF0#8)] ∧ ¬ Memory.wf [(0x1000, 1#8)] ∧ Memory.wf [(0x050, 0#8), (0xFFF, 1#8)] := by decide
theorem test_memory_write_reset_value_unlists : (Memory.put [] 0x300 7#8).put 0x300 0#8 = [] ∧
    (Memory.put [] 0x050 7#8).put 0x050 0xF0#8 = [] := by decide

/-! ## The step cycle and control transfer -/

/-- E17: an odd PC. -/
theorem test_step_odd_pc : pick (step { bytesAt 0x201 [0x6A#8, 0x7F#8] with pc := 0x201#16 }) (fun t => (t.getV 0xA#4, t.pc)) =
    some (0x7F#8, 0x203#16) := by decide
/-- E18, E19. -/
theorem test_step_last_word : pick (step { bytesAt 0xFFE [0x6A#8, 0x7F#8] with pc := 0xFFE#16 }) (fun t => (t.getV 0xA#4, t.pc)) =
      some (0x7F#8, 0x1000#16) ∧
    faultOf (step { State.reset with pc := 0xFFF#16 }) = some (.fetchOutOfRange 0xFFF#16) := by decide
/-- E5: the epilogue after a no-op. -/
theorem test_nop : pick (run1 0x0001 { State.reset with dt := 3#8, st := 1#8 }) (fun t => (t.dt, t.st, t.pc)) =
    some (2#8, 0#8, 0x202#16) := by decide
/-- T1, T2. -/
theorem test_jp : pick (run1 0x1ABC State.reset) (·.pc) = some 0x0ABC#16 ∧ pick (run1 0x1200 State.reset) (·.pc) = some 0x200#16 := by decide
/-- T4, T5. -/
theorem test_call : pick (run1 0x2300 { State.reset with sp := 15#8 }) (fun t => (t.stack[15], t.sp, t.pc)) = some (0x0202#16, 16#8, 0x300#16) ∧
    faultOf (run1 0x2300 { State.reset with sp := 16#8 }) = some (.stackOverflow 0x200#16) := by decide
/-- T3. -/
theorem test_call_pushes_next : pick (run1 0x2ABC { State.reset with pc := 0x234#16 }) (fun t => (t.stack[0], t.sp, t.pc)) =
    some (0x0236#16, 1#8, 0xABC#16) := by decide
/-- T8. -/
theorem test_ret : pick (run1 0x012E ((State.reset.setStackEntry 0 0x300#16).setStackEntry 1 0x402#16 |> fun s => { s with sp := 2#8 }))
    (fun t => (t.pc, t.sp, t.stack[1])) = some (0x402#16, 1#8, 0x402#16) := by decide
/-- T7; an SP above 16 is the model's own fault (log 11). -/
theorem test_ret_faults : faultOf (run1 0x00EE State.reset) = some (.stackUnderflow 0x200#16) ∧
    faultOf (run1 0x00EE { State.reset with sp := 17#8 }) = some (.stackEntryMissing 0x200#16) := by decide
/-- T10, T15. -/
theorem test_jp_v0 : pick (run1 0xBFFF (regs [(0x0#4, 0xFF#8)])) (·.pc) = some 0x10FE#16 ∧
    pick (run1 0xBF00 (regs [(0xF#4, 0x77#8)])) (·.pc) = some 0xF00#16 := by decide

/-! ## Skips -/

/-- S1, S2. -/
theorem test_se_imm : pick (run1 0x3A42 (regs [(0xA#4, 0x42#8)])) (·.pc) = some 0x204#16 ∧
    pick (run1 0x3A42 (regs [(0xA#4, 0x43#8)])) (·.pc) = some 0x202#16 := by decide
/-- S3, S4. -/
theorem test_sne_imm : pick (run1 0x4A42 (regs [(0xA#4, 0x42#8)])) (·.pc) = some 0x202#16 ∧
    pick (run1 0x4A42 (regs [(0xA#4, 0x43#8)])) (·.pc) = some 0x204#16 := by decide
/-- S7, S6. -/
theorem test_se_reg : pick (run1 0x5AB7 (regs [(0xA#4, 7#8), (0xB#4, 7#8)])) (·.pc) = some 0x204#16 ∧
    pick (run1 0x5AB0 (regs [(0xA#4, 7#8), (0xB#4, 8#8)])) (·.pc) = some 0x202#16 := by decide
/-- S9, S11. -/
theorem test_sne_reg : pick (run1 0x9AB0 (regs [(0xA#4, 7#8), (0xB#4, 7#8)])) (·.pc) = some 0x202#16 ∧
    pick (run1 0x9ABF (regs [(0xA#4, 7#8), (0xB#4, 8#8)])) (·.pc) = some 0x204#16 := by decide
/-- S13, S14. -/
theorem test_skp : pick (run1 0xE39E (keys [5] (regs [(0x3#4, 5#8)]))) (·.pc) = some 0x204#16 ∧
    pick (run1 0xE39E (regs [(0x3#4, 5#8)])) (·.pc) = some 0x202#16 := by decide
/-- S17. -/
theorem test_skp_fault : faultOf (run1 0xE39E (regs [(0x3#4, 0x10#8)])) = some (.keyIndexOutOfRange 0x200#16) := by decide
/-- S15, S16. -/
theorem test_sknp : pick (run1 0xE3A1 (keys [5] (regs [(0x3#4, 5#8)]))) (·.pc) = some 0x202#16 ∧
    pick (run1 0xE3A1 (regs [(0x3#4, 5#8)])) (·.pc) = some 0x204#16 := by decide
/-- S18: not masked. -/
theorem test_sknp_fault : faultOf (run1 0xE3A1 (keys [15] (regs [(0x3#4, 0xFF#8)]))) = some (.keyIndexOutOfRange 0x200#16) := by decide

/-! ## Transfer and arithmetic -/

/-- X1, X2. -/
theorem test_ld_imm : pick (run1 0x6A7F State.reset) (·.getV 0xA#4) = some 0x7F#8 ∧ pick (run1 0x6F01 State.reset) (·.getV 0xF#4) = some 1#8 := by
  decide
/-- X3. -/
theorem test_ld_reg : pick (run1 0x8AB0 (regs [(0xA#4, 1#8), (0xB#4, 0x99#8)])) (fun t => (t.getV 0xA#4, t.getV 0xB#4)) =
    some (0x99#8, 0x99#8) := by decide
/-- X4: no flag. -/
theorem test_add_imm : pick (run1 0x7A01 (regs [(0xA#4, 0xFF#8), (0xF#4, 5#8)])) (fun t => (t.getV 0xA#4, t.getV 0xF#4)) =
    some (0#8, 5#8) := by decide
/-- A23. -/
theorem test_or : pick (run1 0x8121 (regs [(1#4, 0xF0#8), (2#4, 0x0F#8), (0xF#4, 0x77#8)])) (fun t => (t.getV 1#4, t.getV 0xF#4)) =
    some (0xFF#8, 0x77#8) := by decide
/-- A24. -/
theorem test_and : pick (run1 0x8122 (regs [(1#4, 0xF0#8), (2#4, 0x3C#8), (0xF#4, 0x77#8)])) (fun t => (t.getV 1#4, t.getV 0xF#4)) =
    some (0x30#8, 0x77#8) := by decide
/-- A25. -/
theorem test_xor : pick (run1 0x8123 (regs [(1#4, 0xF0#8), (2#4, 0x3C#8), (0xF#4, 0x77#8)])) (fun t => (t.getV 1#4, t.getV 0xF#4)) =
    some (0xCC#8, 0x77#8) := by decide
/-- A1, A3. -/
theorem test_add : pick (run1 0x8124 (regs [(1#4, 0xC8#8), (2#4, 0x64#8)])) (fun t => (t.getV 1#4, t.getV 0xF#4)) = some (0x2C#8, 1#8) ∧
    pick (run1 0x8124 (regs [(1#4, 0x80#8), (2#4, 0x7F#8)])) (fun t => (t.getV 1#4, t.getV 0xF#4)) = some (0xFF#8, 0#8) := by decide
/-- A13, A18: VF as destination and as source. -/
theorem test_add_vf : pick (run1 0x8F14 (regs [(0xF#4, 0xF0#8), (1#4, 0x20#8)])) (·.getV 0xF#4) = some 1#8 ∧
    pick (run1 0x81F4 (regs [(1#4, 0xFF#8), (0xF#4, 1#8)])) (fun t => (t.getV 1#4, t.getV 0xF#4)) = some (0#8, 1#8) := by decide
/-- A6, A7: equal operands give flag 0. -/
theorem test_sub : pick (run1 0x8125 (regs [(1#4, 5#8), (2#4, 0x0A#8)])) (fun t => (t.getV 1#4, t.getV 0xF#4)) = some (0xFB#8, 0#8) ∧
    pick (run1 0x8125 (regs [(1#4, 7#8), (2#4, 7#8)])) (fun t => (t.getV 1#4, t.getV 0xF#4)) = some (0#8, 0#8) := by decide
/-- A5, A14. -/
theorem test_sub_flag : pick (run1 0x8125 (regs [(1#4, 0x0A#8), (2#4, 5#8)])) (fun t => (t.getV 1#4, t.getV 0xF#4)) = some (5#8, 1#8) ∧
    pick (run1 0x8F15 (regs [(0xF#4, 5#8), (1#4, 3#8)])) (·.getV 0xF#4) = some 1#8 := by decide
/-- A8, A9. -/
theorem test_subn : pick (run1 0x8127 (regs [(1#4, 0x0A#8), (2#4, 5#8)])) (fun t => (t.getV 1#4, t.getV 0xF#4)) = some (0xFB#8, 0#8) ∧
    pick (run1 0x8127 (regs [(1#4, 5#8), (2#4, 0x0A#8)])) (fun t => (t.getV 1#4, t.getV 0xF#4)) = some (5#8, 1#8) := by decide
/-- A21, A15: the second operand is not used; with VF as destination the flag stays. -/
theorem test_shr : pick (run1 0x8156 (regs [(1#4, 5#8), (5#4, 0xAA#8)])) (fun t => (t.getV 1#4, t.getV 5#4, t.getV 0xF#4)) =
      some (2#8, 0xAA#8, 1#8) ∧
    pick (run1 0x8F06 (regs [(0xF#4, 2#8)])) (·.getV 0xF#4) = some 0#8 := by decide
/-- A12, A22. -/
theorem test_shl : pick (run1 0x812E (regs [(1#4, 0x81#8)])) (fun t => (t.getV 1#4, t.getV 0xF#4)) = some (2#8, 1#8) ∧
    pick (run1 0x812E (regs [(1#4, 0x7F#8)])) (fun t => (t.getV 1#4, t.getV 0xF#4)) = some (0xFE#8, 0#8) := by decide
/-- 44_random.md R87: the byte is masked, whatever it is, and the next draw is another. -/
theorem test_rnd : pick (run1 0xC30F State.reset) (fun t => (t.getV 3#4, t.draw)) = some (Config.rnd 0 &&& 0x0F#8, 1) := by rfl

/-! ## Memory and index -/

/-- 45_memory_index.md R89's example. -/
theorem test_ld_i : pick (run1 0xA300 State.reset) (·.i) = some 0x300#16 := by decide
/-- 45_memory_index.md R90's example, and the 16-bit wrap. -/
theorem test_add_i : pick (run1 0xF21E { regs [(2#4, 0x10#8)] with i := 0x300#16 }) (·.i) = some 0x310#16 ∧
    pick (run1 0xF21E { regs [(2#4, 0x10#8), (0xF#4, 9#8)] with i := 0xFFF8#16 }) (fun t => (t.i, t.getV 0xF#4)) = some (8#16, 9#8) := by decide
/-- 45_memory_index.md R91's example, and a byte above 15, not masked. -/
theorem test_ld_f : pick (run1 0xF029 (regs [(0#4, 0x0A#8)])) (·.i) = some 0x82#16 ∧
    pick (run1 0xF029 (regs [(0#4, 0x10#8)])) (·.i) = some 0xA0#16 := by decide
/-- M11. -/
theorem test_ld_b : pick (run1 0xF333 { regs [(3#4, 157#8)] with i := 0x300#16 })
    (fun t => (t.mem.readBytes 0x300 4, t.i)) = some (some [1#8, 5#8, 7#8, 0#8], 0x300#16) := by decide
/-- M12, M13. -/
theorem test_ld_b_end : pick (run1 0xF333 { regs [(3#4, 0xFF#8)] with i := 0xFFD#16 }) (·.mem.readBytes 0xFFD 3) =
      some (some [2#8, 5#8, 5#8]) ∧
    faultOf (run1 0xF333 { regs [(3#4, 0xFF#8)] with i := 0xFFE#16 }) = some (.dataOutOfRange 0x200#16) := by decide
/-- M14. -/
theorem test_store : pick (run1 0xF255 { regs [(0#4, 0x11#8), (1#4, 0x22#8), (2#4, 0x33#8), (3#4, 0x44#8)] with i := 0x400#16 })
    (fun t => (t.mem.readBytes 0x400 4, t.i)) = some (some [0x11#8, 0x22#8, 0x33#8, 0#8], 0x400#16) := by decide
/-- M17. -/
theorem test_store_fault : faultOf (run1 0xFF55 { State.reset with i := 0xFF1#16 }) = some (.dataOutOfRange 0x200#16) := by decide
/-- M18. -/
theorem test_load : pick (run1 0xF265 { bytesAt 0x400 [0xAA#8, 0xBB#8, 0xCC#8, 0xDD#8] (regs [(3#4, 0x99#8)]) with i := 0x400#16 })
    (fun t => (t.getV 0#4, t.getV 1#4, t.getV 2#4, t.getV 3#4, t.i)) = some (0xAA#8, 0xBB#8, 0xCC#8, 0x99#8, 0x400#16) := by decide
/-- M19, M21. -/
theorem test_load_glyph : pick (run1 0xF065 { State.reset with i := 0x050#16 }) (·.getV 0#4) = some 0xF0#8 ∧
    faultOf (run1 0xF165 { State.reset with i := 0xFFF#16 }) = some (.dataOutOfRange 0x200#16) := by decide

/-! ## Timers and key wait -/

/-- TM5. -/
theorem test_ld_vx_dt : pick (run1 0xF307 { State.reset with dt := 9#8 }) (fun t => (t.getV 3#4, t.dt)) = some (9#8, 8#8) := by decide
/-- TM1, TM2. -/
theorem test_ld_dt_vx : pick (run1 0xF315 (regs [(3#4, 5#8)])) (·.dt) = some 4#8 ∧ pick (run1 0xF315 (regs [])) (·.dt) = some 0#8 := by decide
/-- TM4. -/
theorem test_ld_st_vx : pick (run1 0xF318 (regs [(3#4, 5#8)])) (·.st) = some 4#8 := by decide
/-- K1. -/
theorem test_key_wait : pick (run1 0xF30A { regs [(3#4, 0x77#8)] with dt := 2#8 }) (fun t => (t.pc, t.getV 3#4, t.dt)) =
    some (0x200#16, 0x77#8, 1#8) := by decide
/-- K2: the lowest number. -/
theorem test_key_wait_lowest : pick (run1 0xF30A (keys [9, 7])) (fun t => (t.getV 3#4, t.pc)) = some (7#8, 0x202#16) := by decide

/-! ## Framebuffer -/

/-- DR20. -/
theorem test_cls : pick (run1 0x00E0 (lit [(0, 0), (63, 31)] (regs [(0xF#4, 1#8)]))) (fun t => (onPixels t, t.getV 0xF#4, t.pc)) =
    some ([], 1#8, 0x202#16) := by decide
/-- DR8: a collision, an untouched pixel, a new one. -/
theorem test_drw : pick (run1 0xD121 { bytesAt 0x300 [0xA0#8] (lit [(0, 0), (1, 0)]) with i := 0x300#16 })
    (fun t => (onPixels t, t.getV 0xF#4)) = some ([(1, 0), (2, 0)], 1#8) := by decide
/-- DR6 (the modulus is 64 for rows too), DR4 (row 32). -/
theorem test_drw_rows : pick (run1 0xD124 { bytesAt 0x300 [0#8, 0#8, 0x80#8, 1#8] (regs [(2#4, 62#8)]) with i := 0x300#16 })
      (fun t => (onPixels t, t.getV 0xF#4)) = some ([(0, 0), (7, 1)], 0#8) ∧
    faultOf (run1 0xD123 { bytesAt 0x300 [0x80#8, 0x80#8, 0x80#8] (regs [(2#4, 30#8)]) with i := 0x300#16 }) =
      some (.fbRowOutOfRange 0x200#16) := by decide

/-! ## Host operations -/

/-- Z2. -/
theorem test_load_image : pick (hostLoad [0x12#8, 0x00#8] State.reset) (fun t => (t.mem.readBytes 0x200 2, t.pc)) =
    some (some [0x12#8, 0#8], 0x200#16) := by decide
/-- K7: the host presses a key between two steps. -/
theorem test_set_key : pick (run1 0xF30A (hostSetKey 2 true State.reset)) (fun t => (t.getV 3#4, t.pc)) = some (2#8, 0x202#16) := by decide
/-- Z1. -/
theorem test_reset : (hostReset (regs [(1#4, 7#8)])).getV 1#4 = 0#8 ∧ (hostReset (regs [(1#4, 7#8)])).pc = 0x200#16 ∧
    State.reset.mem.readBytes 0x082 5 = some [0xF0#8, 0x90#8, 0xF0#8, 0x90#8, 0x90#8] := by decide

/-! ## Witnesses: for each statement with hypotheses, states and operands that meet them, clause by clause -/

/-- A state whose PC is at a word placed there. -/
def placed (w : Nat) (s : State := State.reset) : State := s.withFetchWord 16 w

/-- One pressed key. -/
def keyDown (k : Fin 16) : State := hostSetKey k true State.reset

theorem witness_DecodeOfEncodeIsTheInstruction : (Instr.nop 0xF375#16).wellFormed = true ∧ (Instr.drw 0xF#4 0xF#4 0xF#4).wellFormed = true := by
  decide

/-- Each of the eight pairs of words. -/
theorem witness_IgnoredBitsDoNotMatter :
    (0x00E0#16 &&& 0xF00F#16 = 0x0000#16 ∧ 0x0FF0#16 &&& 0xF00F#16 = 0x0000#16) ∧
    (0x00EE#16 &&& 0xF00F#16 = 0x000E#16 ∧ 0x012E#16 &&& 0xF00F#16 = 0x000E#16) ∧
    (0x5AB0#16 &&& 0xF000#16 = 0x5000#16 ∧ 0x5AB0#16 &&& 0xFFF0#16 = 0x5AB7#16 &&& 0xFFF0#16) ∧
    (0x9AB0#16 &&& 0xF000#16 = 0x9000#16 ∧ 0x9AB0#16 &&& 0xFFF0#16 = 0x9ABF#16 &&& 0xFFF0#16) ∧
    (0xE39E#16 &&& 0xF00F#16 = 0xE00E#16 ∧ 0xE39E#16 &&& 0xFF0F#16 = 0xE30E#16 &&& 0xFF0F#16) ∧
    (0xE3A1#16 &&& 0xF00F#16 = 0xE001#16 ∧ 0xE3A1#16 &&& 0xFF0F#16 = 0xE3F1#16 &&& 0xFF0F#16) ∧
    (0x8126#16 &&& 0xF00F#16 = 0x8006#16 ∧ 0x8126#16 &&& 0xFF0F#16 = 0x8156#16 &&& 0xFF0F#16) ∧
    (0x812E#16 &&& 0xF00F#16 = 0x800E#16 ∧ 0x812E#16 &&& 0xFF0F#16 = 0x815E#16 &&& 0xFF0F#16) := by decide

/-- PC at the last legal and the first illegal place. -/
theorem witness_StepRunsTheDecodedInstruction :
    0xFFE < ({ State.reset with pc := 0xFFF#16 } : State).pc.toNat ∧
    ({ State.reset with pc := 0xFFE#16 } : State).pc.toNat ≤ 0xFFE ∧
    (∃ s : State, s.pc = 0xFFE#16 ∧ s.mem.read s.pc.toNat = some 0x6A#8 ∧ s.mem.read (s.pc.toNat + 1) = some 0x7F#8 ∧
      (0x6A7F#16).toNat = 256 * (0x6A#8).toNat + (0x7F#8).toNat) :=
  ⟨by decide, by decide, { bytesAt 0xFFE [0x6A#8, 0x7F#8] with pc := 0xFFE#16 }, by decide⟩

theorem witness_EpilogueRunsInEveryStep : ∃ s m w, s.dt = 0#8 ∧ s.st = 0xFF#8 ∧ fetch s = .ok w ∧ exec (decodeWord w) s.advancePc = .next m :=
  ⟨placed 0x1200 { State.reset with st := 0xFF#8 }, _, 0x1200#16, by decide, by decide, fetch_of_fetches (by decide), rfl⟩

theorem witness_NoOpStepChangesPcAndTimers : ∃ s, fetch s = .ok 0xFFFF#16 ∧ isUnassigned 0xFFFF#16 = true :=
  ⟨placed 0xFFFF, fetch_of_fetches (by decide), by decide⟩

/-- An instruction that meets no condition; each condition at its boundary, and the operands one short of it. -/
theorem witness_UndefinedExactlyWhenListed :
    (∀ f, ¬ UndefinedAt State.reset (.jp 0x200#12) f) ∧
    (∃ f, UndefinedAt { State.reset with sp := 16#8 } (.call 0x300#12) f) ∧ (∀ f, ¬ UndefinedAt { State.reset with sp := 15#8 } (.call 0x300#12) f) ∧
    (∃ f, UndefinedAt State.reset (.ret 0x0E#8) f) ∧ (∃ f, UndefinedAt { State.reset with sp := 17#8 } (.ret 0x0E#8) f) ∧
    (∃ f, UndefinedAt (regs [(3#4, 16#8)]) (.skp 3#4 9#4) f) ∧ (∀ f, ¬ UndefinedAt (regs [(3#4, 15#8)]) (.sknp 3#4 9#4) f) ∧
    (∃ f, UndefinedAt { State.reset with i := 0xFFE#16 } (.ldB 3#4) f) ∧ (∀ f, ¬ UndefinedAt { State.reset with i := 0xFFD#16 } (.ldB 3#4) f) ∧
    (∃ f, UndefinedAt { State.reset with i := 0xFF1#16 } (.storeRegs 0xF#4) f) ∧
    (∀ f, ¬ UndefinedAt { State.reset with i := 0xFF0#16 } (.loadRegs 0xF#4) f) ∧
    (∃ f, UndefinedAt { State.reset with i := 0x1000#16 } (.drw 1#4 2#4 1#4) f) ∧
    (∃ f, UndefinedAt (placed 0xFFFF (regs [(2#4, 32#8)]) |> fun s => { s with i := s.pc }) (.drw 1#4 2#4 1#4) f) := by
  refine ⟨fun _ h => h, ⟨_, by decide, rfl⟩, fun _ h => absurd h.1 (by decide), ⟨_, .inl ⟨by decide, rfl⟩⟩, ⟨_, .inr ⟨by decide, rfl⟩⟩,
    ⟨_, by decide, rfl⟩, fun _ h => absurd h.1 (by decide), ⟨_, by decide, rfl⟩, fun _ h => absurd h.1 (by decide), ⟨_, by decide, rfl⟩,
    fun _ h => absurd h.1 (by decide), ⟨_, 0, by decide, fun q hq => absurd hq (by omega), .inl ⟨by decide, rfl⟩⟩,
    ⟨_, 0, by decide, fun q hq => absurd hq (by omega), .inr ⟨0xFF#8, by decide, by decide, by decide, rfl⟩⟩⟩

theorem witness_InstructionsWriteOnlyTheirParts : ∃ s t, exec (.drw 1#4 2#4 5#4) s = .next t := ⟨State.reset, next_of_isNext (by decide)⟩

/-- A call that fills the stack, a return from a full one, another instruction, one that is neither. -/
theorem witness_StackIsReachedOnlyByCallAndReturn :
    (∃ s t, s.sp = 15#8 ∧ exec (.call 0x300#12) s = .next t) ∧ (∃ s t, s.sp = 16#8 ∧ exec (.ret 0x0E#8) s = .next t) ∧
    (∃ s t, (∀ nnn, Instr.ret 0x0E#8 ≠ .call nnn) ∧ exec (.ret 0x0E#8) s = .next t) ∧
    ((∀ nnn, Instr.jp 0x300#12 ≠ .call nnn) ∧ ∀ ign, Instr.jp 0x300#12 ≠ .ret ign) :=
  ⟨⟨{ State.reset with sp := 15#8 }, _, rfl, rfl⟩, ⟨{ State.reset with sp := 16#8 }, _, rfl, rfl⟩,
    ⟨{ State.reset with sp := 1#8 }, _, (fun _ h => by cases h), rfl⟩, (fun _ h => by cases h), (fun _ h => by cases h)⟩

theorem witness_KeypadIsWrittenByTheHostAlone :
    (∃ s t, exec (.skp 0#4 9#4) s = .next t) ∧ (∃ s t, step s = .next t) ∧
    ((∀ x ign, Instr.cls 0#8 ≠ .skp x ign) ∧ (∀ x ign, Instr.cls 0#8 ≠ .sknp x ign) ∧ ∀ x, Instr.cls 0#8 ≠ .ldVxK x) :=
  ⟨⟨keyDown 0, next_of_isNext (by decide)⟩, ⟨placed 0xF00A, next_of_isNext (by decide)⟩,
    (fun _ _ h => by cases h), (fun _ _ h => by cases h), (fun _ h => by cases h)⟩

theorem witness_TimerInstructionsAndNoOtherTouchTimers :
    ((∀ x, Instr.ldDtVx 0#4 ≠ .ldStVx x) ∧ ∀ x, Instr.ldStVx 0#4 ≠ .ldDtVx x) ∧ (∃ s t, exec (.ldStVx 0#4) s = .next t) ∧
    (∃ s t w, fetch s = .ok w ∧ step s = .next t ∧ (∀ x, decodeWord w ≠ .ldDtVx x) ∧ ∀ x, decodeWord w ≠ .ldStVx x) :=
  ⟨⟨(fun _ h => by cases h), (fun _ h => by cases h)⟩, ⟨State.reset, next_of_isNext (by decide)⟩,
    (next_of_isNext (o := step (placed 0xF007)) (by decide)).elim fun t h =>
      ⟨placed 0xF007, t, 0xF007#16, fetch_of_fetches (by decide), h, (fun _ e => by cases e), (fun _ e => by cases e)⟩⟩

theorem witness_RandomByteIsUsedByRndAlone : ∀ x kk, Instr.ldImm 0#4 0xFF#8 ≠ .rnd x kk := (fun _ _ h => by cases h)

/-- Per clause: instructions outside each list; a store that changes a byte; a draw; a call. -/
theorem witness_SeparateSpacesDoNotAlias :
    ((∀ ign, Instr.ldVxK 0#4 ≠ .cls ign) ∧ ∀ x y n, Instr.ldVxK 0#4 ≠ .drw x y n) ∧
    ((∀ x ign, Instr.call 0x300#12 ≠ .skp x ign) ∧ (∀ x ign, Instr.call 0x300#12 ≠ .sknp x ign) ∧ ∀ x, Instr.call 0x300#12 ≠ .ldVxK x) ∧
    ((∀ nnn, Instr.cls 0#8 ≠ .call nnn) ∧ ∀ ign, Instr.cls 0#8 ≠ .ret ign) ∧
    (∃ s t, exec (.storeRegs 0#4) s = .next t ∧ ∃ a, t.mem.read a ≠ s.mem.read a) ∧
    (∃ s t, exec (.drw 0#4 0#4 0xF#4) s = .next t) ∧ (∃ s t, exec (.call 0xFFF#12) s = .next t) := by
  refine ⟨⟨(fun _ h => by cases h), (fun _ _ _ h => by cases h)⟩, ⟨(fun _ _ h => by cases h), (fun _ _ h => by cases h), (fun _ h => by cases h)⟩,
    ⟨(fun _ h => by cases h), (fun _ h => by cases h)⟩, ?_, ⟨State.reset, next_of_isNext (by decide)⟩,
    ⟨State.reset, next_of_isNext (by decide)⟩⟩
  exact ⟨{ regs [(0#4, 7#8)] with i := 0xFFF#16 }, { regs [(0#4, 7#8)] with i := 0xFFF#16, mem := [(0xFFF, 7#8)] }, rfl, 0xFFF, by decide⟩

/-- The invariant at its bounds: 16 entries, an entry of 0x1000, PC at 0x10FE; and a state from which a step completes. -/
theorem witness_StepKeepsInv :
    Machine.Inv { State.reset.setStackEntry 15 0x1000#16 with sp := 16#8, pc := 0x10FE#16 } ∧
    ∃ s t, Machine.Inv s ∧ step s = .next t :=
  ⟨⟨wf_nil, by decide, by decide, by decide⟩,
    (next_of_isNext (o := step State.reset) (by decide)).elim fun t h => ⟨State.reset, t, ⟨wf_nil, by decide, by decide, by decide⟩, h⟩⟩

theorem witness_HostOperationsKeepInv : ∃ s, Machine.Inv s ∧ (∃ t, applyHostOp .reset s = .next t) ∧
    (∃ t, applyHostOp (.load [0x12#8, 0x00#8]) s = .next t) ∧ (∃ t, applyHostOp (.setKey 15 true) s = .next t) ∧
    ∃ t, applyHostOp .step s = .next t :=
  ⟨State.reset, ⟨wf_nil, by decide, by decide, by decide⟩, ⟨_, rfl⟩, next_of_isNext (by decide), ⟨_, rfl⟩, next_of_isNext (by decide)⟩

/-- P6: a run that fills a stack entry; SP at both bounds. -/
theorem witness_StackPointerStaysInRange :
    (∃ t, runHostOps [.load [0x22#8, 0x00#8], .setKey 3 true, .step, .reset] State.reset = .next t) ∧
    ({ State.reset with sp := 16#8 } : State).sp.toNat = 16 ∧ State.reset.sp.toNat = 0 :=
  ⟨next_of_isNext (by decide), by decide, by decide⟩

theorem witness_ByteWriteChangesExactlyOneByte : (0xFFF : Nat) ≤ 0xFFF ∧ 0xFFF < (0x1000 : Nat) := by decide

/-- M22: the word stored where PC points. -/
theorem witness_StoreIsSeenByTheNextFetch : ∃ s t, (0#4).toNat + 1 ≤ (1#4).toNat ∧ exec (.storeRegs 1#4) s = .next t ∧
    t.pc.toNat = s.i.toNat + (0#4).toNat :=
  ⟨{ regs [(0#4, 0x6A#8), (1#4, 0x55#8)] with i := 0xFFE#16, pc := 0xFFE#16 },
    { regs [(0#4, 0x6A#8), (1#4, 0x55#8)] with i := 0xFFE#16, pc := 0xFFE#16, mem := [(0xFFE, 0x6A#8), (0xFFF, 0x55#8)] },
    by decide, rfl, by decide⟩

theorem witness_CallPushesTheReturnAddress :
    (15 : Fin 16).val = ({ State.reset with sp := 15#8 } : State).sp.toNat ∧ (0 : Fin 16).val = State.reset.sp.toNat ∧
    16 ≤ ({ State.reset with sp := 16#8 } : State).sp.toNat := by decide

theorem witness_ReturnPopsTheReturnAddress :
    (15 : Fin 16).val + 1 = ({ State.reset with sp := 16#8 } : State).sp.toNat ∧
    (0 : Fin 16).val + 1 = ({ State.reset with sp := 1#8 } : State).sp.toNat ∧ State.reset.sp.toNat = 0 ∧
    16 < ({ State.reset with sp := 17#8 } : State).sp.toNat := by decide

theorem witness_ReturnResumesAfterTheCall : ∃ s t u : State, exec (.call 0x210#12) s = .next t ∧ u.sp = t.sp ∧ u.stack = t.stack :=
  ⟨{ State.reset with sp := 15#8 }, _, _, rfl, rfl, rfl⟩

theorem witness_KeySkips : (15 : Fin 16).val = ((regs [(3#4, 15#8)]).getV 3#4).toNat ∧ (0 : Fin 16).val = (State.reset.getV 3#4).toNat ∧
    15 < ((regs [(3#4, 16#8)]).getV 3#4).toNat := by decide

/-- Each of the six skips; a skip taken at 0xFFC (S19). -/
theorem witness_SkipsWritePcAlone :
    (∃ s t, exec (.seImm 0#4 0#8) s = .next t) ∧ (∃ s t, exec (.sneImm 0#4 1#8) s = .next t) ∧
    (∃ s t, exec (.seReg 0#4 1#4 7#4) s = .next t) ∧ (∃ s t, exec (.sneReg 0#4 1#4 7#4) s = .next t) ∧
    (∃ s t, exec (.skp 0#4 9#4) s = .next t) ∧ (∃ s t, exec (.sknp 0#4 9#4) s = .next t) ∧
    ∃ s t, fetch s = .ok 0x3000#16 ∧ decodeWord 0x3000#16 = .seImm 0#4 0#8 ∧ step s = .next t ∧ t.pc = s.pc + 4#16 ∧ 0xFFC ≤ s.pc.toNat := by
  refine ⟨⟨State.reset, _, rfl⟩, ⟨State.reset, _, rfl⟩, ⟨State.reset, _, rfl⟩, ⟨State.reset, _, rfl⟩,
    ⟨State.reset, next_of_isNext (by decide)⟩, ⟨State.reset, next_of_isNext (by decide)⟩, ?_⟩
  have hf : fetch (placed 0x3000 { State.reset with pc := 0xFFC#16 }) = .ok 0x3000#16 := fetch_of_fetches (by decide)
  have hp : (placed 0x3000 { State.reset with pc := 0xFFC#16 }).pc = 0xFFC#16 := by decide
  refine ⟨_, _, hf, rfl, step_next _ _ _ hf rfl, ?_, by rw [hp]; decide⟩
  rw [hp, epilogue_pc, skipIf_pc, advancePc_pc, hp]; decide

/-- The operands may be any; x = 15 and x < 15 both occur. -/
theorem witness_AddAndSubtractSetTheFlag : ∃ s : State, 200 = (s.getV 1#4).toNat ∧ 100 = (s.getV 2#4).toNat ∧ (1#4 : Nibble) ≠ 0xF#4 :=
  ⟨regs [(1#4, 200#8), (2#4, 100#8)], by decide⟩

theorem witness_ShiftsSetTheFlag : ∃ s : State, 128 = (s.getV 1#4).toNat ∧ (1#4 : Nibble) ≠ 0xF#4 := ⟨regs [(1#4, 128#8)], by decide⟩

theorem witness_RandomByteIsMasked : (3 : Nat) < 8 ∧ (0x07#8).getLsbD 3 = false := by decide

theorem witness_DecimalDigitsAreStored : ({ State.reset with i := 0xFFD#16 } : State).i.toNat + 2 ≤ 0xFFF ∧
    0xFFF < ({ State.reset with i := 0xFFE#16 } : State).i.toNat + 2 := by decide

theorem witness_RegistersAreStored : ({ State.reset with i := 0xFF0#16 } : State).i.toNat + (0xF#4).toNat ≤ 0xFFF ∧
    0xFFF < ({ State.reset with i := 0xFF1#16 } : State).i.toNat + (0xF#4).toNat := by decide

theorem witness_RegistersAreLoaded : ({ State.reset with i := 0xFFF#16 } : State).i.toNat + (0#4).toNat ≤ 0xFFF ∧
    0xFFF < ({ State.reset with i := 0xFFF#16 } : State).i.toNat + (1#4).toNat := by decide

theorem witness_LoadRestoresStoredRegisters : ∃ s t u : State, exec (.storeRegs 0#4) s = .next t ∧ u.i = s.i ∧ (∀ a, u.mem.read a = t.mem.read a) :=
  ⟨{ regs [(0#4, 7#8)] with i := 0xFFF#16 }, { regs [(0#4, 7#8)] with i := 0xFFF#16, mem := [(0xFFF, 7#8)] },
    { State.reset with i := 0xFFF#16, mem := [(0xFFF, 7#8)] }, rfl, rfl, fun _ => rfl⟩

theorem witness_TimerWriteCountsTheWritingStep :
    (fetch (placed 0xF315) = .ok 0xF315#16 ∧ decodeWord 0xF315#16 = .ldDtVx 3#4) ∧
    (fetch (placed 0xF318) = .ok 0xF318#16 ∧ decodeWord 0xF318#16 = .ldStVx 3#4) ∧
    (fetch (placed 0xF307) = .ok 0xF307#16 ∧ decodeWord 0xF307#16 = .ldVxDt 3#4) :=
  ⟨⟨fetch_of_fetches (by decide), rfl⟩, ⟨fetch_of_fetches (by decide), rfl⟩, fetch_of_fetches (by decide), rfl⟩

/-- Key 15 alone, key 0 alone, and none. -/
theorem witness_KeyWaitTakesTheLowestKey :
    ((keyDown 15).key[15] = true ∧ ∀ j : Fin 16, j.val < 15 → (keyDown 15).key[j.val] = false) ∧
    ((keyDown 0).key[0] = true ∧ ∀ j : Fin 16, j.val < 0 → (keyDown 0).key[j.val] = false) ∧
    ∀ j : Fin 16, State.reset.key[j.val] = false := by decide

theorem witness_KeyWaitRepeatsUntilAKeyIsPressed : ∃ s, fetch s = .ok 0xF20A#16 ∧ decodeWord 0xF20A#16 = .ldVxK 2#4 ∧
    ∀ j : Fin 16, s.key[j.val] = false := ⟨placed 0xF20A, fetch_of_fetches (by decide), rfl, by decide⟩

theorem witness_ClearTurnsEveryPixelOff : 0x0FF0#16 &&& 0xF00F#16 = 0x0000#16 ∧
    ∃ s : State, s.mem.read s.pc.toNat = some 0x00#8 ∧ s.mem.read (s.pc.toNat + 1) = some 0xE0#8 := ⟨by decide, placed 0x00E0, by decide⟩

/-- The glyph "A" at rows 3 to 7; a sprite bit on a lit pixel, and none. -/
theorem witness_DrawFlipsThePixelsUnderTheSprite :
    (∀ r, r < (5#4).toNat → rowDefined { regs [(1#4, 5#8), (2#4, 3#8)] with i := 0x082#16 } 2#4 r) ∧
    (∃ s : State, (∃ py px, underSprite s 1#4 2#4 1#4 py px ∧ s.fb.read py px = true) ∧ rowDefined s 2#4 0) ∧
    (∃ s : State, (∃ py px, underSprite s 1#4 2#4 1#4 py px) ∧ ∀ py px, underSprite s 1#4 2#4 1#4 py px → s.fb.read py px = false) := by
  refine ⟨fun r hr => ?_, ⟨{ lit [(0, 31)] (regs [(2#4, 31#8)]) with i := 0x050#16 }, ⟨31, 0, ⟨0, 0, by decide, by decide, ⟨0xF0#8, by decide, by decide⟩,
    by decide, by decide⟩, by decide⟩, ⟨0xF0#8, by decide, fun _ => by decide⟩⟩, ⟨{ State.reset with i := 0x050#16 },
    ⟨0, 0, 0, 0, by decide, by decide, ⟨0xF0#8, by decide, by decide⟩, by decide, by decide⟩, fun py px _ => read_blank py px⟩⟩
  have h : r = 0 ∨ r = 1 ∨ r = 2 ∨ r = 3 ∨ r = 4 := by have : r < 5 := hr; omega
  rcases h with rfl | rfl | rfl | rfl | rfl
  · exact ⟨0xF0#8, by decide, fun _ => by decide⟩
  · exact ⟨0x90#8, by decide, fun _ => by decide⟩
  · exact ⟨0xF0#8, by decide, fun _ => by decide⟩
  · exact ⟨0x90#8, by decide, fun _ => by decide⟩
  · exact ⟨0x90#8, by decide, fun _ => by decide⟩

/-- The first draw's result with VF set back, drawn on again. -/
theorem witness_DrawingTwiceRestoresTheFramebuffer : ∃ s t u : State, exec (.drw 1#4 0xF#4 5#4) s = .next t ∧ u.fb = t.fb ∧ u.i = s.i ∧
    u.getV 1#4 = s.getV 1#4 ∧ u.getV 0xF#4 = s.getV 0xF#4 ∧ ∀ a, u.mem.read a = s.mem.read a :=
  (next_of_isNext (o := exec (.drw 1#4 0xF#4 5#4) { regs [(0xF#4, 3#8)] with i := 0x082#16 }) (by decide)).elim fun t h =>
    ⟨_, t, { regs [(0xF#4, 3#8)] with i := 0x082#16, fb := t.fb }, h, rfl, rfl, rfl, rfl, fun _ => rfl⟩

theorem witness_ResetIsForTheDefaultGlyph : ∃ g : Vector Byte 80, g.toList = defaultGlyph :=
  ⟨⟨defaultGlyph.toArray, by decide⟩, by decide⟩

/-- An address before, after, and the bounds of the glyph table. -/
theorem witness_ResetValues : (0x04F : Nat) ≤ 0xFFF ∧ (0x04F < 0x050 ∨ 0x09F < 0x04F) ∧ (0x0A0 : Nat) ≤ 0xFFF ∧ (0x0A0 < 0x050 ∨ 0x09F < 0x0A0) ∧
    ∃ (g : Vector Byte 80) (s : State), s = State.resetWithGlyph g := ⟨by decide, by decide, by decide, by decide, Vector.replicate 80 0xFF#8, _, rfl⟩

/-- An image of the greatest length, an empty one, and two bytes where PC points. -/
theorem witness_LoadPlacesTheImage : (List.replicate 3584 0x60#8 : List Byte).length ≤ 3584 ∧ ([] : List Byte).length ≤ 3584 ∧
    ([0x12#8, 0x00#8] : List Byte)[0]? = some 0x12#8 ∧ ([0x12#8, 0x00#8] : List Byte)[0 + 1]? = some 0x00#8 ∧
    ∃ t, hostLoad [0x12#8, 0x00#8] State.reset = .next t ∧ t.pc.toNat = 0x200 + 0 :=
  ⟨by rw [List.length_replicate], by decide, rfl, rfl, _, hostLoad_of_le _ _ (by decide), by decide⟩

theorem witness_OversizeLoadIsUndefined : 3584 < (List.replicate 3585 0x60#8 : List Byte).length := by rw [List.length_replicate]; decide

theorem witness_EmptyMemoryClearsUntilItOverruns : (0 : Nat) ≤ 1792 ∧ 1791 < 1792 ∧ (∃ t, Host.Core.run core 1 State.reset = .next t) :=
  ⟨by decide, by decide, (next_of_isNext (o := step State.reset) (by decide)).elim fun t h => ⟨t, run_succ 0 _ t h⟩⟩

theorem witness_SelfJumpLeavesAllButTheTimers : ∃ s, fetch s = .ok 0x1200#16 ∧ decodeWord 0x1200#16 = .jp 0x200#12 ∧
    s.pc.toNat = (0x200#12).toNat := ⟨placed 0x1200, fetch_of_fetches (by decide), rfl, by decide⟩

end Sys2Proof.Tests
end

/-! ## 00_scope.md R8: an instruction and a step end in a next state or in a fault. -/

namespace Sys2Proof.Machine

/-- The two ends R8 allows: a next state or an undefined condition. -/
def NextOrFault (o : Host.Outcome State Fault Refusal) : Prop := (∃ t, o = .next t) ∨ ∃ f, o = .fault f

theorem NextOrFault.of_next {o : Host.Outcome State Fault Refusal} {t : State} (h : o = .next t) : NextOrFault o :=
  Or.inl ⟨t, h⟩

theorem NextOrFault.of_fault {o : Host.Outcome State Fault Refusal} {f : Fault} (h : o = .fault f) : NextOrFault o :=
  Or.inr ⟨f, h⟩

/-- The form of a case lemma: undefined under one condition, completing under another. -/
theorem NextOrFault.of_fault_or_next {o : Host.Outcome State Fault Refusal} {P Q : Prop} {f : Fault} {t : State}
    (h : (P ∧ o = .fault f) ∨ (Q ∧ o = .next t)) : NextOrFault o := by
  obtain ⟨-, h⟩ | ⟨-, h⟩ := h
  · exact .of_fault h
  · exact .of_next h

/-- The epilogue of a step keeps the kind of its instruction's outcome (30_encoding.md R45). -/
theorem NextOrFault.thenEpilogue {o : Host.Outcome State Fault Refusal} (h : NextOrFault o) :
    NextOrFault (thenEpilogue o) := by
  obtain ⟨t, rfl⟩ | ⟨f, rfl⟩ := h
  · exact .of_next rfl
  · exact .of_fault rfl

/-- A draw stops at its first undefined row, or has none (48_draw.md R104, R108). -/
theorem execDrw_nextOrFault (x y n : Nibble) (s : State) : NextOrFault (execDrw x y n s) := by
  obtain hdef | ⟨f, hundef⟩ := drw_defined_or x y n s
  · obtain ⟨sc, hsc, -⟩ := execDrw_ok x y n s hdef
    exact .of_next hsc
  · exact .of_fault (execDrw_fault x y n s f hundef)

/-- The meanings that branch end as their case lemmas say; every other meaning is a next state as it stands. -/
theorem exec_nextOrFault (i : Instr) (s : State) : NextOrFault (exec i s) := by
  cases i with
  | call nnn => exact .of_fault_or_next (execCall_cases nnn s)
  | ret _ =>
    obtain ⟨-, h⟩ | ⟨-, h⟩ | ⟨_, -, h⟩ := execRet_cases s
    · exact .of_fault h
    · exact .of_fault h
    · exact .of_next h
  | skp x _ =>
    obtain ⟨-, h⟩ | ⟨_, -, h⟩ := execSkp_cases x s
    · exact .of_fault h
    · exact .of_next h
  | sknp x _ =>
    obtain ⟨-, h⟩ | ⟨_, -, h⟩ := execSknp_cases x s
    · exact .of_fault h
    · exact .of_next h
  | ldVxK x =>
    obtain ⟨-, h⟩ | ⟨_, -, -, h⟩ := execLdVxK_cases x s
    · exact .of_next h
    · exact .of_next h
  | ldB x => exact .of_fault_or_next (execLdB_cases x s)
  | storeRegs x => exact .of_fault_or_next (execStoreRegs_cases x s)
  | loadRegs x => exact .of_fault_or_next (execLoadRegs_cases x s)
  | drw x y n => exact execDrw_nextOrFault x y n s
  | cls | jp | seImm | sneImm | seReg | ldImm | addImm | ldReg | orReg | andReg | xorReg | addReg | subReg | shr | subn | shl
  | sneReg | ldI | jpV0 | rnd | ldVxDt | ldDtVx | ldStVx | addI | ldF | nop => exact .of_next rfl

/-- A step is undefined by its fetch, or ends as the instruction it fetched does (30_encoding.md R45). -/
theorem step_nextOrFault (s : State) : NextOrFault (step s) := by
  rw [step]
  cases fetch s with
  | ok w => exact (exec_nextOrFault (decodeWord w) s.advancePc).thenEpilogue
  | error f => exact .of_fault rfl

/-- Settles O9: every meaning is a next state or a fault by its cases, and a step adds the fetch's fault and the epilogue. -/
theorem everyOutcomeIsNextOrUndefined : Obligations.EveryOutcomeIsNextOrUndefined :=
  ⟨exec_nextOrFault, step_nextOrFault⟩

end Sys2Proof.Machine

/-! ## 10_state.md section 1: the parts an instruction that completes may change. -/

namespace Sys2Proof.Machine

/-! ### What the meanings that branch leave when they complete -/

/-- An outcome has one next state. -/
theorem next_unique {o : Host.Outcome State Fault Refusal} {t t' : State} (h : o = .next t) (ht : o = .next t') : t' = t :=
  Host.Outcome.next.inj (ht.symm.trans h)

/-- A meaning with one undefined condition that completes does what its completing case says. -/
theorem next_of_fault_or_next {o : Host.Outcome State Fault Refusal} {P Q : Prop} {f : Fault} {t t' : State}
    (h : (P ∧ o = .fault f) ∨ (Q ∧ o = .next t)) (ht : o = .next t') : Q ∧ t' = t := by
  obtain ⟨-, h⟩ | ⟨hQ, h⟩ := h
  · cases h.symm.trans ht
  · exact ⟨hQ, next_unique h ht⟩

/-- A return that completes (40_control_transfer.md R62). -/
theorem execRet_next {s t : State} (h : execRet s = .next t) :
    ∃ k : Fin 16, k.val + 1 = s.sp.toNat ∧ t = { s with sp := s.sp - 1#8, pc := s.stack[k.val] } := by
  obtain ⟨-, e⟩ | ⟨-, e⟩ | ⟨k, hk, e⟩ := execRet_cases s
  · cases e.symm.trans h
  · cases e.symm.trans h
  · exact ⟨k, hk, next_unique e h⟩

/-- `SKP` that completes is a skip (41_conditional_skip.md R69). -/
theorem execSkp_next {x : Nibble} {s t : State} (h : execSkp x s = .next t) : ∃ c, t = s.skipIf c := by
  obtain ⟨-, e⟩ | ⟨k, -, e⟩ := execSkp_cases x s
  · cases e.symm.trans h
  · exact ⟨_, next_unique e h⟩

/-- `SKNP` that completes is a skip (41_conditional_skip.md R70). -/
theorem execSknp_next {x : Nibble} {s t : State} (h : execSknp x s = .next t) : ∃ c, t = s.skipIf c := by
  obtain ⟨-, e⟩ | ⟨k, -, e⟩ := execSknp_cases x s
  · cases e.symm.trans h
  · exact ⟨_, next_unique e h⟩

/-- A key wait takes a pressed key, or rewinds `PC` when there is none (47_key_wait.md R100). -/
theorem execLdVxK_next {x : Nibble} {s t : State} (h : execLdVxK x s = .next t) :
    ((∀ k : Fin 16, s.key[k.val] = false) ∧ t = { s with pc := s.pc - 2#16 }) ∨
    ((∃ k : Fin 16, s.key[k.val] = true) ∧ ∃ b, t = s.setV x b) := by
  obtain ⟨hoff, e⟩ | ⟨k, hon, -, e⟩ := execLdVxK_cases x s
  · exact .inl ⟨hoff, next_unique e h⟩
  · exact .inr ⟨⟨k, hon⟩, _, next_unique e h⟩

/-- A draw that completes flips the pixels under the sprite and leaves the collision in `VF` (48_draw.md R104 to R106). -/
theorem execDrw_next {x y n : Nibble} {s t : State} (h : execDrw x y n s = .next t) :
    ∃ sc : Scan, t = { s with fb := sc.fb }.setV regF (flagByte sc.hit) ∧
      Flipped (underSprite s x y n) { fb := s.fb, hit := false } sc := by
  obtain hdef | ⟨f, hundef⟩ := drw_defined_or x y n s
  · obtain ⟨sc, e, hsc⟩ := execDrw_ok x y n s hdef
    exact ⟨sc, next_unique e h, hsc⟩
  · cases (execDrw_fault x y n s f hundef).symm.trans h

/-! ### The frame -/

/-- A draw writes `VF` and the pixels under the sprite (48_draw.md R104 to R107; log 4, 10). -/
theorem execDrw_changesOnly {x y n : Nibble} {s t : State} (h : execDrw x y n s = .next t) :
    ChangesOnly (writes (.drw x y n) s) s t := by
  obtain ⟨sc, rfl, hsc⟩ := execDrw_next h
  exact changesOnly_trans (changesOnly_mono (changesOnly_fb s sc.fb _ hsc.off) fun _ => Or.inr)
    (changesOnly_mono (changesOnly_setV _ regF _) fun _ => Or.inl)

/-- A key wait writes `V[x]` when a key is pressed and `PC` when none is (47_key_wait.md R100). -/
theorem execLdVxK_changesOnly {x : Nibble} {s t : State} (h : execLdVxK x s = .next t) :
    ChangesOnly (writes (.ldVxK x) s) s t := by
  obtain ⟨hoff, rfl⟩ | ⟨hon, b, rfl⟩ := execLdVxK_next h
  · exact changesOnly_mono (changesOnly_pc s _) fun _ hp => .inr ⟨hoff, hp⟩
  · exact changesOnly_mono (changesOnly_setV s x b) fun _ hp => .inl ⟨hon, hp⟩

/-- A call writes the entry at `SP`, `SP` and `PC` (40_control_transfer.md R61; log 5). -/
theorem execCall_changesOnly {nnn : Addr12} {s t : State} (h : execCall nnn s = .next t) :
    ChangesOnly (writes (.call nnn) s) s t := by
  obtain ⟨hsp, rfl⟩ := next_of_fault_or_next (execCall_cases nnn s) h
  exact changesOnly_mono (changesOnly_push s ⟨s.sp.toNat, hsp⟩ rfl _ _) fun _ => Or.imp_left fun hp => ⟨_, rfl, hp⟩

/-- `LD B` writes the three bytes at `I` (45_memory_index.md R92). -/
theorem execLdB_changesOnly {x : Nibble} {s t : State} (h : execLdB x s = .next t) :
    ChangesOnly (writes (.ldB x) s) s t := by
  obtain ⟨hi, rfl⟩ := next_of_fault_or_next (execLdB_cases x s) h
  exact changesOnly_putBytes s s.i.toNat (decimalDigits (s.getV x)) (by simp; omega)

/-- `LD [I], Vx` writes the `x + 1` bytes at `I` (45_memory_index.md R93). -/
theorem execStoreRegs_changesOnly {x : Nibble} {s t : State} (h : execStoreRegs x s = .next t) :
    ChangesOnly (writes (.storeRegs x) s) s t := by
  obtain ⟨hi, rfl⟩ := next_of_fault_or_next (execStoreRegs_cases x s) h
  refine changesOnly_mono (changesOnly_putBytes s s.i.toNat _ (by simp; omega)) fun _ ⟨k, hk, hp⟩ => ⟨k, ?_, hp⟩
  simp at hk; omega

/-- `LD Vx, [I]` writes `V[0]` to `V[x]` (45_memory_index.md R94). -/
theorem execLoadRegs_changesOnly {x : Nibble} {s t : State} (h : execLoadRegs x s = .next t) :
    ChangesOnly (writes (.loadRegs x) s) s t := by
  obtain ⟨-, rfl⟩ := next_of_fault_or_next (execLoadRegs_cases x s) h
  exact changesOnly_setVFrom s x _ (by simp)

/-- Settles O12: each meaning is an update whose frame the laws give, which its inversion lemma names where it branches. -/
theorem instructionsWriteOnlyTheirParts : Obligations.InstructionsWriteOnlyTheirParts := by
  intro i s t h
  cases i with
  | cls ign =>
    obtain rfl := Host.Outcome.next.inj h
    exact changesOnly_mono (changesOnly_fb s _ (fun _ _ => True) fun _ _ hc => absurd trivial hc)
      fun _ ⟨y, x, _, hp⟩ => ⟨y, x, hp⟩
  | ret ign =>
    obtain ⟨k, -, rfl⟩ := execRet_next h
    exact changesOnly_sp_pc s _ _
  | call nnn => exact execCall_changesOnly h
  | jp | jpV0 => obtain rfl := Host.Outcome.next.inj h; exact changesOnly_pc s _
  | seImm | sneImm | seReg | sneReg => obtain rfl := Host.Outcome.next.inj h; exact changesOnly_skipIf s _
  | skp => obtain ⟨c, rfl⟩ := execSkp_next h; exact changesOnly_skipIf s c
  | sknp => obtain ⟨c, rfl⟩ := execSknp_next h; exact changesOnly_skipIf s c
  | ldImm | addImm | ldReg | orReg | andReg | xorReg | ldVxDt =>
    obtain rfl := Host.Outcome.next.inj h; exact changesOnly_setV s _ _
  | addReg | subReg | shr | subn | shl => obtain rfl := Host.Outcome.next.inj h; exact changesOnly_setVAndFlag s _ _ _
  | ldI | addI | ldF => obtain rfl := Host.Outcome.next.inj h; exact changesOnly_i s _
  | ldDtVx => obtain rfl := Host.Outcome.next.inj h; exact changesOnly_dt s _
  | ldStVx => obtain rfl := Host.Outcome.next.inj h; exact changesOnly_st s _
  | rnd x kk =>
    obtain rfl := Host.Outcome.next.inj h
    exact changesOnly_trans (changesOnly_mono (changesOnly_setV s x _) fun _ => Or.inl)
      (changesOnly_mono (changesOnly_draw _ _) fun _ => Or.inr)
  | drw x y n => exact execDrw_changesOnly h
  | ldVxK x => exact execLdVxK_changesOnly h
  | ldB x => exact execLdB_changesOnly h
  | storeRegs x => exact execStoreRegs_changesOnly h
  | loadRegs x => exact execLoadRegs_changesOnly h
  | nop => obtain rfl := Host.Outcome.next.inj h; exact changesOnly_refl _ s

end Sys2Proof.Machine

/-! ## 10_state.md R14, R17, R28: the invariant of the machine, and what reset leaves. -/

namespace Sys2Proof.Machine

/-! ### The invariant, update by update -/

/-- A jump to a target of R63 keeps the invariant. -/
theorem Inv.setPc {s : State} (hs : Inv s) {w : Word} (hw : w.toNat ≤ 0x10FE) : Inv { s with pc := w } :=
  ⟨hs.mem_wf, hs.sp_le, hs.stack_le, hw⟩

/-- A memory in canonical form keeps the invariant. -/
theorem Inv.setMem {s : State} (hs : Inv s) {m : Memory} (hm : m.wf) : Inv { s with mem := m } :=
  ⟨hm, hs.sp_le, hs.stack_le, hs.pc_le⟩

/-- Registers are no part of the invariant. -/
theorem Inv.setV {s : State} (hs : Inv s) (x : Nibble) (b : Byte) : Inv (s.setV x b) :=
  ⟨hs.mem_wf, hs.sp_le, hs.stack_le, hs.pc_le⟩

/-- Registers loaded from memory are no part of the invariant. -/
theorem Inv.setVFrom {s : State} (hs : Inv s) (k : Nat) (bs : List Byte) : Inv (s.setVFrom k bs) where
  mem_wf := by simpa using hs.mem_wf
  sp_le := by simpa using hs.sp_le
  stack_le := by simpa using hs.stack_le
  pc_le := by simpa using hs.pc_le

/-- Timers are no part of the invariant. -/
theorem Inv.epilogue {s : State} (hs : Inv s) : Inv s.epilogue := ⟨hs.mem_wf, hs.sp_le, hs.stack_le, hs.pc_le⟩

/-- Where a fetch succeeds, `PC` advances without wrapping, to 0x1000 at most (30_encoding.md R46, R47). -/
theorem advancePc_pc_bounds {s : State} {w : Word} (h : fetch s = .ok w) :
    2 ≤ s.advancePc.pc.toNat ∧ s.advancePc.pc.toNat ≤ 0x1000 := by
  obtain ⟨hpc, -⟩ := (fetch_eq_ok_iff s w).mp h
  simp; omega

/-- A skip from 0x1000 at most stays below the largest target (41_conditional_skip.md R71). -/
theorem Inv.skipIf {s : State} (hs : Inv s) (hpc : s.pc.toNat ≤ 0x1000) (c : Bool) : Inv (s.skipIf c) := by
  cases c with
  | false => exact hs
  | true => exact hs.setPc (by simp; omega)

/-- A jump's target is at most 0xFFF (40_control_transfer.md R60). -/
theorem zextAddr_le (nnn : Addr12) : (zextAddr nnn).toNat ≤ 0x10FE := by
  have := nnn.isLt
  simp; omega

/-- An indexed jump's target is at most 0xFFF + 0xFF (40_control_transfer.md R63; log 14). -/
theorem zextAddr_add_zextByte_le (nnn : Addr12) (b : Byte) : (zextAddr nnn + zextByte b).toNat ≤ 0x10FE := by
  have := nnn.isLt
  have := b.isLt
  simp; omega

/-- A push below 16 entries of an address of 0x1000 at most (40_control_transfer.md R61, R62; log 5). -/
theorem execCall_keeps_inv {nnn : Addr12} {s t : State} (hs : Inv s) (hpc : s.pc.toNat ≤ 0x1000)
    (h : execCall nnn s = .next t) : Inv t := by
  obtain ⟨hsp, rfl⟩ := next_of_fault_or_next (execCall_cases nnn s) h
  refine ⟨hs.mem_wf, by simp; omega, fun k => ?_, zextAddr_le nnn⟩
  simp only [setStackEntry_stack]
  split
  · exact hpc
  · exact hs.stack_le k

/-- A return takes an entry off and jumps to it (40_control_transfer.md R62; log 5). -/
theorem execRet_keeps_inv {s t : State} (hs : Inv s) (h : execRet s = .next t) : Inv t := by
  obtain ⟨k, hk, rfl⟩ := execRet_next h
  have hsp := hs.sp_le
  have hentry := hs.stack_le k
  exact ⟨hs.mem_wf, by simp; omega, hs.stack_le, by simp only; omega⟩

/-- Every instruction executed where a step has advanced `PC` keeps the invariant. -/
theorem exec_keeps_inv {i : Instr} {s t : State} (hs : Inv s) (hpc₂ : 2 ≤ s.pc.toNat) (hpc : s.pc.toNat ≤ 0x1000)
    (h : exec i s = .next t) : Inv t := by
  cases i with
  | ret => exact execRet_keeps_inv hs h
  | call => exact execCall_keeps_inv hs hpc h
  | jp nnn => obtain rfl := Host.Outcome.next.inj h; exact hs.setPc (zextAddr_le nnn)
  | jpV0 nnn => obtain rfl := Host.Outcome.next.inj h; exact hs.setPc (zextAddr_add_zextByte_le nnn _)
  | seImm | sneImm | seReg | sneReg => obtain rfl := Host.Outcome.next.inj h; exact hs.skipIf hpc _
  | skp => obtain ⟨c, rfl⟩ := execSkp_next h; exact hs.skipIf hpc c
  | sknp => obtain ⟨c, rfl⟩ := execSknp_next h; exact hs.skipIf hpc c
  | ldVxK x =>
    obtain ⟨-, rfl⟩ | ⟨-, b, rfl⟩ := execLdVxK_next h
    · exact hs.setPc (by simp; omega)
    · exact hs.setV x b
  | ldB x =>
    obtain ⟨hi, rfl⟩ := next_of_fault_or_next (execLdB_cases x s) h
    exact hs.setMem (wf_putBytes _ _ _ (by simp; omega) hs.mem_wf)
  | storeRegs x =>
    obtain ⟨hi, rfl⟩ := next_of_fault_or_next (execStoreRegs_cases x s) h
    exact hs.setMem (wf_putBytes _ _ _ (by simp; omega) hs.mem_wf)
  | loadRegs x =>
    obtain ⟨-, rfl⟩ := next_of_fault_or_next (execLoadRegs_cases x s) h
    exact hs.setVFrom 0 _
  | drw =>
    obtain ⟨sc, rfl, -⟩ := execDrw_next h
    exact ⟨hs.mem_wf, hs.sp_le, hs.stack_le, hs.pc_le⟩
  | cls | ldImm | addImm | ldReg | orReg | andReg | xorReg | addReg | subReg | shr | subn | shl | ldI | rnd | ldVxDt | ldDtVx
  | ldStVx | addI | ldF | nop =>
    obtain rfl := Host.Outcome.next.inj h
    exact ⟨hs.mem_wf, hs.sp_le, hs.stack_le, hs.pc_le⟩

/-- Settles O19: the fetch bounds `PC`, the instruction keeps the invariant from there, and the epilogue counts timers alone. -/
theorem stepKeepsInv : Obligations.StepKeepsInv := by
  intro s t hs h
  obtain ⟨w, m, hw, he, rfl⟩ := (step_next_iff s t).mp h
  obtain ⟨hpc₂, hpc⟩ := advancePc_pc_bounds hw
  have hadv : Inv s.advancePc := hs.setPc (hpc.trans (by decide))
  exact (exec_keeps_inv hadv hpc₂ hpc he).epilogue

/-- Settles O18: reset lists no memory, empties the stack and sets `PC` to 0x200. -/
theorem resetSatisfiesInv : Obligations.ResetSatisfiesInv where
  mem_wf := wf_nil
  sp_le := by simp
  stack_le k := by simp
  pc_le := by simp

/-! ### The host's operations and runs of them -/

/-- A load that is defined changes memory alone, within its canonical form (70_reset_and_hazards.md R132; log 12, 17). -/
theorem hostLoad_keeps_inv {image : List Byte} {s t : State} (hs : Inv s) (h : hostLoad image s = .next t) : Inv t := by
  have hwf := wf_hostLoad image s t hs.mem_wf h
  rw [hostLoad] at h
  split at h
  · obtain rfl := Host.Outcome.next.inj h
    exact hs.setMem hwf
  · cases h

/-- Settles O20: reset starts the invariant again, a load and a step keep it, and it does not speak of keys. -/
theorem hostOperationsKeepInv : Obligations.HostOperationsKeepInv := by
  intro op s t hs h
  cases op with
  | reset =>
    obtain rfl := Host.Outcome.next.inj h
    obtain ⟨hmem, hsp, hstack, hpc⟩ := resetSatisfiesInv
    exact ⟨hmem, hsp, hstack, hpc⟩
  | load image => exact hostLoad_keeps_inv hs h
  | setKey k b =>
    obtain rfl := Host.Outcome.next.inj h
    exact ⟨hs.mem_wf, hs.sp_le, hs.stack_le, hs.pc_le⟩
  | step => exact stepKeepsInv s t hs h

/-- A run of the host's operations keeps the invariant (70_reset_and_hazards.md R137). -/
theorem runHostOps_keeps_inv {ops : List HostOp} {s t : State} (hs : Inv s) (h : runHostOps ops s = .next t) : Inv t := by
  induction ops generalizing s with
  | nil => obtain rfl := Host.Outcome.next.inj h; exact hs
  | cons op ops ih =>
    rw [runHostOps] at h
    split at h
    · rename_i u hu
      exact ih (hostOperationsKeepInv op s u hs hu) h
    · cases h
    · cases h

/-- Settles O21: the bound is the invariant's, along any run from reset; the two faults are the stack's own cases. -/
theorem stackPointerStaysInRange : Obligations.StackPointerStaysInRange := by
  refine ⟨fun ops t h => (runHostOps_keeps_inv resetSatisfiesInv h).sp_le, fun nnn s hsp => ?_, fun ign s hsp => ?_⟩
  · obtain ⟨-, e⟩ | ⟨hlt, -⟩ := execCall_cases nnn s
    · exact e
    · omega
  · obtain ⟨-, e⟩ | ⟨hgt, -⟩ | ⟨k, hk, -⟩ := execRet_cases s
    · exact e
    · omega
    · omega

/-! ### What reset leaves -/

/-- Memory after reset with the glyph table `g` (10_state.md R28; 20_memory.md R31, R32). -/
theorem resetWithGlyph_mem_read (g : Vector Byte 80) (a : Nat) : (State.resetWithGlyph g).mem.read a =
    if 0x050 ≤ a ∧ a < 0x050 + 80 then g[a - 0x050]? else State.reset.mem.read a := by
  have h : (State.resetWithGlyph g).mem.read a = _ := read_putBytes g.toList [] 0x050 a (by simp)
  simpa using h

/-- Settles O47: every part but memory is `State.reset`'s, and memory is the glyph table put over zeroes. -/
theorem resetValues : Obligations.ResetValues := by
  rintro g _ rfl
  refine ⟨reset_getV, rfl, rfl, rfl, reset_stack, rfl, rfl, read_blank, reset_key, fun k => ?_, fun a ha hout => ?_⟩
  · rw [resetWithGlyph_mem_read, if_pos (by omega)]
    simp
  · rw [resetWithGlyph_mem_read, if_neg (by omega), reset_mem_read a ha, initial_zero a hout]

end Sys2Proof.Machine

/-! ## 10_state.md R16, R22, R24: who writes and who reads the stack, the keypad and the random byte. -/

namespace Sys2Proof.Machine

/-! ### Replacing the parts few instructions read -/

/-- The stack, the keypad and the draw counter replaced, each by a function of what it was; `id` leaves one alone. -/
def State.mapSide (a : Vector Word 16 → Vector Word 16) (b : Vector Bool 16 → Vector Bool 16) (c : Nat → Nat) (s : State) :
    State := { s with stack := a s.stack, key := b s.key, draw := c s.draw }

section MapSide
variable (a : Vector Word 16 → Vector Word 16) (b : Vector Bool 16 → Vector Bool 16) (c : Nat → Nat) (s : State)

@[simp] theorem mapSide_getV (x : Nibble) : (s.mapSide a b c).getV x = s.getV x := rfl
@[simp] theorem mapSide_i : (s.mapSide a b c).i = s.i := rfl
@[simp] theorem mapSide_pc : (s.mapSide a b c).pc = s.pc := rfl
@[simp] theorem mapSide_sp : (s.mapSide a b c).sp = s.sp := rfl
@[simp] theorem mapSide_mem : (s.mapSide a b c).mem = s.mem := rfl
@[simp] theorem mapSide_fb : (s.mapSide a b c).fb = s.fb := rfl

/-- A skip reads its condition and `PC` alone. -/
theorem skipIf_mapSide (p : Bool) : (s.mapSide a b c).skipIf p = (s.skipIf p).mapSide a b c := by cases p <;> rfl

/-- A load of registers reaches none of the three. -/
theorem setVFrom_mapSide (bs : List Byte) : ∀ (s : State) (k : Nat),
    (s.mapSide a b c).setVFrom k bs = (s.setVFrom k bs).mapSide a b c := by
  induction bs with
  | nil => intro s k; rfl
  | cons d bs ih => intro s k; exact ih (s.setV _ d) (k + 1)

/-- A block store reads and writes memory alone. -/
theorem writeBlock_mapSide (k : Nat) (bs : List Byte) : outcome ((s.mapSide a b c).writeBlock k bs) =
    mapNext (State.mapSide a b c) (outcome (s.writeBlock k bs)) := by
  rw [State.writeBlock, State.writeBlock, mapSide_mem]
  cases s.mem.writeBytes k bs <;> rfl

/-- A block load reads memory and writes registers alone. -/
theorem execLoadRegs_mapSide (x : Nibble) : execLoadRegs x (s.mapSide a b c) =
    mapNext (State.mapSide a b c) (execLoadRegs x s) := by
  have hread : ∀ k n, (s.mapSide a b c).readBlock k n = s.readBlock k n := fun _ _ => rfl
  rw [execLoadRegs, execLoadRegs, hread, State.dataAddr, mapSide_i, ← State.dataAddr]
  cases s.readBlock (s.dataAddr 0) (x.toNat + 1) with
  | ok bs => exact congrArg Host.Outcome.next (setVFrom_mapSide a b c bs s 0)
  | error f => rfl

/-- A draw scans memory and the framebuffer alone. -/
theorem execDrw_mapSide (x y n : Nibble) : execDrw x y n (s.mapSide a b c) =
    mapNext (State.mapSide a b c) (execDrw x y n s) := by
  have hscan := rows_congr s (s.mapSide a b c) rfl rfl rfl
  rw [execDrw, execDrw, hscan, mapSide_getV, mapSide_getV, mapSide_fb]
  cases Scan.rows { fb := s.fb, hit := false } s (s.getV x).toNat (s.getV y).toNat (List.range n.toNat) <;> rfl

/-- A call with the same stack does not see the other two. -/
theorem execCall_mapSide (nnn : Addr12) : execCall nnn (s.mapSide id b c) =
    mapNext (State.mapSide id b c) (execCall nnn s) := by
  rw [execCall, execCall, mapSide_sp]
  split <;> rfl

/-- A return with the same stack does not see the other two. -/
theorem execRet_mapSide : execRet (s.mapSide id b c) = mapNext (State.mapSide id b c) (execRet s) := by
  have hentry : ∀ k, (s.mapSide id b c).stackEntry k = s.stackEntry k := fun _ => rfl
  rw [execRet, execRet, mapSide_sp, hentry]
  split
  · rfl
  · cases s.stackEntry (s.sp.toNat - 1) <;> rfl

/-- `SKP` with the same keys does not see the other two. -/
theorem execSkp_mapSide (x : Nibble) : execSkp x (s.mapSide a id c) = mapNext (State.mapSide a id c) (execSkp x s) := by
  have hkey : ∀ k, (s.mapSide a id c).keyAt k = s.keyAt k := fun _ => rfl
  rw [execSkp, execSkp, mapSide_getV, hkey]
  cases s.keyAt (s.getV x).toNat with
  | some p => exact congrArg Host.Outcome.next (skipIf_mapSide a id c s p)
  | none => rfl

/-- `SKNP` with the same keys does not see the other two. -/
theorem execSknp_mapSide (x : Nibble) : execSknp x (s.mapSide a id c) = mapNext (State.mapSide a id c) (execSknp x s) := by
  have hkey : ∀ k, (s.mapSide a id c).keyAt k = s.keyAt k := fun _ => rfl
  rw [execSknp, execSknp, mapSide_getV, hkey]
  cases s.keyAt (s.getV x).toNat with
  | some p => exact congrArg Host.Outcome.next (skipIf_mapSide a id c s !p)
  | none => rfl

/-- A key wait with the same keys does not see the other two. -/
theorem execLdVxK_mapSide (x : Nibble) : execLdVxK x (s.mapSide a id c) =
    mapNext (State.mapSide a id c) (execLdVxK x s) := by
  have hkey : (s.mapSide a id c).lowestKey = s.lowestKey := rfl
  rw [execLdVxK, execLdVxK, hkey]
  cases s.lowestKey <;> rfl

end MapSide

/-- An instruction does the same whatever the stack holds unless it is a call or a return, whatever keys are pressed unless it
is one of the three that read them, and whatever the draw counter is unless it is `RND`; and it leaves what it found. -/
theorem exec_mapSide {i : Instr} {a : Vector Word 16 → Vector Word 16} {b : Vector Bool 16 → Vector Bool 16} {c : Nat → Nat}
    (ha : a = id ∨ (∀ nnn, i ≠ .call nnn) ∧ ∀ ign, i ≠ .ret ign)
    (hb : b = id ∨ (∀ x ign, i ≠ .skp x ign) ∧ (∀ x ign, i ≠ .sknp x ign) ∧ ∀ x, i ≠ .ldVxK x)
    (hc : c = id ∨ ∀ x kk, i ≠ .rnd x kk) (s : State) :
    exec i (s.mapSide a b c) = mapNext (State.mapSide a b c) (exec i s) := by
  cases i with
  | call nnn => obtain rfl := ha.resolve_right fun h => h.1 nnn rfl; exact execCall_mapSide b c s nnn
  | ret ign => obtain rfl := ha.resolve_right fun h => h.2 ign rfl; exact execRet_mapSide b c s
  | skp x ign => obtain rfl := hb.resolve_right fun h => h.1 x ign rfl; exact execSkp_mapSide a c s x
  | sknp x ign => obtain rfl := hb.resolve_right fun h => h.2.1 x ign rfl; exact execSknp_mapSide a c s x
  | ldVxK x => obtain rfl := hb.resolve_right fun h => h.2.2 x rfl; exact execLdVxK_mapSide a c s x
  | rnd x kk => obtain rfl := hc.resolve_right fun h => h x kk rfl; rfl
  | seImm | sneImm | seReg | sneReg => exact congrArg Host.Outcome.next (skipIf_mapSide a b c s _)
  | ldB | storeRegs => exact writeBlock_mapSide a b c s _ _
  | loadRegs x => exact execLoadRegs_mapSide a b c s x
  | drw x y n => exact execDrw_mapSide a b c s x y n
  | cls | jp | jpV0 | ldImm | addImm | ldReg | orReg | andReg | xorReg | addReg | subReg | shr | subn | shl | ldI | ldVxDt
  | ldDtVx | ldStVx | addI | ldF | nop => rfl

/-! ### Who writes the stack and the keypad -/

/-- Two stacks that look alike entry by entry are equal. -/
theorem stack_eq_of_look {s t : State} (h : ∀ k : Fin 16, t.look (.stack k) = s.look (.stack k)) : t.stack = s.stack := by
  apply Vector.ext
  intro k hk
  exact BitVec.eq_of_toNat_eq (Option.some.inj (h ⟨k, hk⟩))

/-- A flag is known by its number. -/
theorem bool_eq_of_toNat_eq : ∀ p q : Bool, p.toNat = q.toNat → p = q := by decide

/-- Two keypads that look alike key by key are equal. -/
theorem key_eq_of_look {s t : State} (h : ∀ k : Fin 16, t.look (.key k) = s.look (.key k)) : t.key = s.key := by
  apply Vector.ext
  intro k hk
  exact bool_eq_of_toNat_eq _ _ (Option.some.inj (h ⟨k, hk⟩))

/-- No instruction but a call may write a stack entry (10_state.md R16). -/
theorem not_writes_stack {i : Instr} (hi : ∀ nnn, i ≠ .call nnn) (s : State) (k : Fin 16) : ¬ writes i s (.stack k) := by
  cases i with
  | call nnn => exact absurd rfl (hi nnn)
  | _ => simp [writes]

/-- No instruction may write a key (10_state.md R22). -/
theorem not_writes_key (i : Instr) (s : State) (k : Fin 16) : ¬ writes i s (.key k) := by
  cases i <;> simp [writes]

/-- By the frame, every instruction but a call leaves the stack as it was (10_state.md R16). -/
theorem exec_stack {i : Instr} {s t : State} (hi : ∀ nnn, i ≠ .call nnn) (h : exec i s = .next t) : t.stack = s.stack :=
  stack_eq_of_look fun k => instructionsWriteOnlyTheirParts i s t h _ (not_writes_stack hi s k)

/-- By the frame, every instruction leaves the keypad as it was (10_state.md R22). -/
theorem exec_key {i : Instr} {s t : State} (h : exec i s = .next t) : t.key = s.key :=
  key_eq_of_look fun k => instructionsWriteOnlyTheirParts i s t h _ (not_writes_key i s k)

/-- A call writes the return address to the entry at `SP` alone (10_state.md R16; 40_control_transfer.md R61). -/
theorem execCall_stack {nnn : Addr12} {s t : State} (h : execCall nnn s = .next t) (k : Fin 16) :
    t.stack[k.val] = if k.val = s.sp.toNat then s.pc else s.stack[k.val] := by
  obtain ⟨-, rfl⟩ := next_of_fault_or_next (execCall_cases nnn s) h
  exact setStackEntry_stack s s.sp.toNat s.pc k

/-- A call on another stack does the same, but for the stack it leaves (10_state.md R16). -/
theorem execCall_withStack (nnn : Addr12) (s : State) (q : Vector Word 16) : execCall nnn { s with stack := q } =
    mapNext (fun t => { t with stack := q.setIfInBounds s.sp.toNat s.pc }) (execCall nnn s) := by
  rw [execCall, execCall]
  split <;> rfl

/-- Settles O13: calls and returns by their own lemmas, every other instruction by its frame and by the replaced stack. -/
theorem stackIsReachedOnlyByCallAndReturn : Obligations.StackIsReachedOnlyByCallAndReturn := by
  refine ⟨fun nnn s t h => execCall_stack h, fun ign s t h => ⟨exec_stack (by simp) h, ?_⟩, fun i s t hi h => exec_stack hi h,
    fun i s q hcall hret => ?_, execCall_withStack, reset_stack⟩
  · obtain ⟨k, hk, rfl⟩ := execRet_next h
    exact ⟨k, hk, rfl⟩
  · exact exec_mapSide (a := fun _ => q) (.inr ⟨hcall, hret⟩) (.inl rfl) (.inl rfl) s

/-- Setting a key changes that key alone (10_state.md R26). -/
theorem changesOnly_hostSetKey (k : Fin 16) (b : Bool) (s : State) :
    ChangesOnly (fun p => p = .key k) s (hostSetKey k b s) := by
  apply changesOnly_intro <;> intros <;> try rfl
  case hkey j hj =>
    have hne : k.val ≠ j.val := fun e => hj (by rw [Fin.ext e])
    simp [hostSetKey, hne]

/-- Settles O14: the frame keeps the keypad in an instruction, the epilogue in a step, and a replaced keypad goes unread. -/
theorem keypadIsWrittenByTheHostAlone : Obligations.KeypadIsWrittenByTheHostAlone := by
  refine ⟨fun i s t h => exec_key h, fun s t h => ?_, fun i s q hskp hsknp hwait => ?_,
    fun k b s => ⟨by simp [hostSetKey], changesOnly_hostSetKey k b s⟩, reset_key⟩
  · obtain ⟨w, m, -, he, rfl⟩ := (step_next_iff s t).mp h
    rw [epilogue_key, exec_key he, advancePc_key]
  · exact exec_mapSide (b := fun _ => q) (.inl rfl) (.inr ⟨hskp, hsknp, hwait⟩) (.inl rfl) s

/-- Settles O16: the draw counter alone is replaced. -/
theorem randomByteIsUsedByRndAlone : Obligations.RandomByteIsUsedByRndAlone := fun _ s d hrnd =>
  exec_mapSide (c := fun _ => d) (.inl rfl) (.inl rfl) (.inr hrnd) s

end Sys2Proof.Machine

/-! ## 20_memory.md R32, R34, R43: what a write changes and who sees it, and reset memory as the glyph table. -/

namespace Sys2Proof.Machine

/-- Settles O22: a byte is a block of length one, which changes its own address inside the array and is undefined outside. -/
theorem byteWriteChangesExactlyOneByte : Obligations.ByteWriteChangesExactlyOneByte := by
  intro s a w
  refine ⟨fun ha => ?_, fun ha => ⟨write_of_gt _ a w ha, ?_⟩⟩
  · have hfit : a + [w].length ≤ 0x1000 := by simp; omega
    refine ⟨_, writeBlock_of_le s a [w] hfit, ?_, ?_⟩
    · simp [read_putBytes _ _ _ _ hfit]
    · refine changesOnly_mono (changesOnly_putBytes s a [w] hfit) fun _ ⟨k, hk, hp⟩ => ?_
      simpa [Nat.lt_one_iff.mp hk] using hp
  · exact writeBlock_of_gt s a [w] (by simp) (by simp; omega)

/-- A stored register stands at its own address of the block (45_memory_index.md R93). -/
theorem execStoreRegs_mem_read {x k : Nibble} {s t : State} (h : execStoreRegs x s = .next t) (hk : k.toNat ≤ x.toNat) :
    t.mem.read (s.i.toNat + k.toNat) = some (s.getV k) := by
  obtain ⟨hi, rfl⟩ := next_of_fault_or_next (execStoreRegs_cases x s) h
  rw [read_putBytes _ _ _ _ (by simp; omega), if_pos (by simp; omega), Nat.add_sub_cancel_left, regsUpTo_getElem? s x k hk]

/-- Settles O23: the two registers stand at `PC` and after it, high byte first, where the fetch reads them. -/
theorem storeIsSeenByTheNextFetch : Obligations.StoreIsSeenByTheNextFetch := by
  intro x k s t hk h hpc
  have hsucc : (k + 1#4).toNat = k.toNat + 1 := by have := x.isLt; simp; omega
  have hhi := execStoreRegs_mem_read h (show k.toNat ≤ x.toNat by omega)
  have hlo := execStoreRegs_mem_read h (hsucc.trans_le hk)
  rw [hsucc, ← Nat.add_assoc, ← hpc] at hlo
  rw [← hpc] at hhi
  exact ⟨_, fetch_of_read t _ _ hhi hlo, composeWord_toNat _ _⟩

/-- Settles O48: the table put over nothing and nothing listed are canonical memories that read alike. -/
theorem resetIsForTheDefaultGlyph : Obligations.ResetIsForTheDefaultGlyph := by
  have hread : ∀ k : Fin 80, State.reset.mem.read (0x050 + k.val) = some (defaultGlyph.getD k.val 0#8) := fun k => by
    rw [reset_mem_read _ (by omega), initial_glyph k.val k.isLt]
  refine ⟨fun g hg => ?_, hread⟩
  have hmem : (State.resetWithGlyph g).mem = State.reset.mem := by
    refine wf_ext _ _ (wf_putBytes g.toList [] 0x050 (by simp) wf_nil) wf_nil fun a => ?_
    rw [resetWithGlyph_mem_read]
    split
    next hin =>
      have hglyph : g[a - 0x050]? = some (defaultGlyph.getD (a - 0x050) 0#8) := by
        rw [← hg]; simp [show a - 0x050 < 80 by omega]
      have := hread ⟨a - 0x050, by omega⟩
      rwa [Nat.add_sub_cancel' hin.1, ← hglyph, eq_comm] at this
    next => rfl
  exact congrArg (fun m => { State.reset with mem := m }) hmem

end Sys2Proof.Machine

/-! ## 20_memory.md R39: memory, framebuffer, keypad and stack are separate spaces. -/

namespace Sys2Proof.Machine

/-! ### Replacing the framebuffer -/

/-- The state with another framebuffer. -/
def State.withFb (g : Frame) (s : State) : State := { s with fb := g }

/-- Two outcomes with the same undefined condition and the same change to the next state are related by that change. -/
theorem eq_mapNext_of_fault_or_next {o o' : Host.Outcome State Fault Refusal} {P Q : Prop} {f : Fault} {t : State}
    {F : State → State} (h : (P ∧ o = .fault f) ∨ (Q ∧ o = .next t)) (h' : (P ∧ o' = .fault f) ∨ (Q ∧ o' = .next (F t)))
    (hPQ : ¬ (P ∧ Q)) : o' = mapNext F o := by
  obtain ⟨hP, rfl⟩ | ⟨hQ, rfl⟩ := h
  · exact (h'.resolve_right fun hn => hPQ ⟨hP, hn.1⟩).2
  · exact (h'.resolve_left fun hf => hPQ ⟨hf.1, hQ⟩).2

section WithFb
variable (g : Frame) (s : State)

@[simp] theorem withFb_getV (x : Nibble) : (s.withFb g).getV x = s.getV x := rfl
@[simp] theorem withFb_sp : (s.withFb g).sp = s.sp := rfl
@[simp] theorem withFb_stackEntry (k : Nat) : (s.withFb g).stackEntry k = s.stackEntry k := rfl
@[simp] theorem withFb_keyAt (k : Nat) : (s.withFb g).keyAt k = s.keyAt k := rfl
@[simp] theorem withFb_lowestKey : (s.withFb g).lowestKey = s.lowestKey := rfl

/-! The parts of the meanings that branch commute with the replacement, and so do the meanings; the others do by rfl. -/

theorem skipIf_withFb (p : Bool) : (s.withFb g).skipIf p = (s.skipIf p).withFb g := by cases p <;> rfl

theorem setVFrom_withFb (bs : List Byte) : ∀ (s : State) (k : Nat),
    (s.withFb g).setVFrom k bs = (s.setVFrom k bs).withFb g := by
  induction bs with
  | nil => intro s k; rfl
  | cons d bs ih => intro s k; exact ih (s.setV _ d) (k + 1)

theorem execCall_withFb (nnn : Addr12) : execCall nnn (s.withFb g) = mapNext (State.withFb g) (execCall nnn s) :=
  eq_mapNext_of_fault_or_next (execCall_cases nnn s) (execCall_cases nnn (s.withFb g)) (by omega)

theorem execLdB_withFb (x : Nibble) : execLdB x (s.withFb g) = mapNext (State.withFb g) (execLdB x s) :=
  eq_mapNext_of_fault_or_next (execLdB_cases x s) (execLdB_cases x (s.withFb g)) (by omega)

theorem execStoreRegs_withFb (x : Nibble) : execStoreRegs x (s.withFb g) = mapNext (State.withFb g) (execStoreRegs x s) :=
  eq_mapNext_of_fault_or_next (execStoreRegs_cases x s) (execStoreRegs_cases x (s.withFb g)) (by omega)

theorem execLoadRegs_withFb (x : Nibble) : execLoadRegs x (s.withFb g) = mapNext (State.withFb g) (execLoadRegs x s) := by
  have h := execLoadRegs_cases x (s.withFb g)
  rw [setVFrom_withFb] at h
  exact eq_mapNext_of_fault_or_next (execLoadRegs_cases x s) h (by omega)

theorem execRet_withFb : execRet (s.withFb g) = mapNext (State.withFb g) (execRet s) := by
  rw [execRet, execRet, withFb_sp, withFb_stackEntry]
  split
  · rfl
  · cases s.stackEntry (s.sp.toNat - 1) <;> rfl

theorem execSkp_withFb (x : Nibble) : execSkp x (s.withFb g) = mapNext (State.withFb g) (execSkp x s) := by
  rw [execSkp, execSkp, withFb_getV, withFb_keyAt]
  cases s.keyAt (s.getV x).toNat with
  | some p => exact congrArg Host.Outcome.next (skipIf_withFb g s p)
  | none => rfl

theorem execSknp_withFb (x : Nibble) : execSknp x (s.withFb g) = mapNext (State.withFb g) (execSknp x s) := by
  rw [execSknp, execSknp, withFb_getV, withFb_keyAt]
  cases s.keyAt (s.getV x).toNat with
  | some p => exact congrArg Host.Outcome.next (skipIf_withFb g s !p)
  | none => rfl

theorem execLdVxK_withFb (x : Nibble) : execLdVxK x (s.withFb g) = mapNext (State.withFb g) (execLdVxK x s) := by
  rw [execLdVxK, execLdVxK, withFb_lowestKey]
  cases s.lowestKey <;> rfl

end WithFb

/-- An instruction that is neither the clear nor a draw does the same whatever the framebuffer holds, and leaves it as it was
(20_memory.md R39). -/
theorem exec_withFb {i : Instr} (hcls : ∀ ign, i ≠ .cls ign) (hdrw : ∀ x y n, i ≠ .drw x y n) (g : Frame) (s : State) :
    exec i (s.withFb g) = mapNext (State.withFb g) (exec i s) := by
  cases i with
  | cls ign => exact absurd rfl (hcls ign)
  | drw x y n => exact absurd rfl (hdrw x y n)
  | ret ign => exact execRet_withFb g s
  | call nnn => exact execCall_withFb g s nnn
  | skp x ign => exact execSkp_withFb g s x
  | sknp x ign => exact execSknp_withFb g s x
  | ldVxK x => exact execLdVxK_withFb g s x
  | ldB x => exact execLdB_withFb g s x
  | storeRegs x => exact execStoreRegs_withFb g s x
  | loadRegs x => exact execLoadRegs_withFb g s x
  | seImm | sneImm | seReg | sneReg => exact congrArg Host.Outcome.next (skipIf_withFb g s _)
  | jp | jpV0 | ldImm | addImm | ldReg | orReg | andReg | xorReg | addReg | subReg | shr | subn | shl | ldI | rnd | ldVxDt
  | ldDtVx | ldStVx | addI | ldF | nop => rfl

/-! ### Who writes memory -/

/-- No instruction but the two stores may write a byte of memory (20_memory.md R34, R39). -/
theorem not_writes_mem {i : Instr} (hbcd : ∀ x, i ≠ .ldB x) (hstore : ∀ x, i ≠ .storeRegs x) (s : State) (a : Nat) :
    ¬ writes i s (.mem a) := by
  cases i with
  | ldB x => exact absurd rfl (hbcd x)
  | storeRegs x => exact absurd rfl (hstore x)
  | _ => simp [writes]

/-- By the frame, every instruction but the two stores leaves memory as it was (20_memory.md R39). -/
theorem exec_mem_read {i : Instr} {s t : State} (hbcd : ∀ x, i ≠ .ldB x) (hstore : ∀ x, i ≠ .storeRegs x)
    (h : exec i s = .next t) (a : Nat) : t.mem.read a = s.mem.read a :=
  Option.map_injective BitVec.toNat_injective
    (instructionsWriteOnlyTheirParts i s t h (.mem a) (not_writes_mem hbcd hstore s a))

/-- An instruction that changes a byte of memory is a store, and a store changes no other space (20_memory.md R39). -/
theorem exec_spaces_of_mem_changed {i : Instr} {s t : State} {a : Nat} (h : exec i s = .next t)
    (ha : t.mem.read a ≠ s.mem.read a) : t.fb = s.fb ∧ t.key = s.key ∧ t.stack = s.stack := by
  cases i with
  | ldB x => obtain ⟨-, rfl⟩ := next_of_fault_or_next (execLdB_cases x s) h; exact ⟨rfl, rfl, rfl⟩
  | storeRegs x => obtain ⟨-, rfl⟩ := next_of_fault_or_next (execStoreRegs_cases x s) h; exact ⟨rfl, rfl, rfl⟩
  | _ => exact absurd (exec_mem_read (by simp) (by simp) h a) ha

/-- Settles O17: the readers of each space by replacing it, the writers of memory by the frame. -/
theorem separateSpacesDoNotAlias : Obligations.SeparateSpacesDoNotAlias := by
  obtain ⟨-, -, hkey, -, -⟩ := keypadIsWrittenByTheHostAlone
  obtain ⟨-, -, -, hstack, -, -⟩ := stackIsReachedOnlyByCallAndReturn
  exact ⟨fun i s g hcls hdrw => exec_withFb hcls hdrw g s, hkey, hstack, fun i s t h ⟨a, ha⟩ => exec_spaces_of_mem_changed h ha,
    fun x y n s t => exec_mem_read (by simp) (by simp), fun nnn s t => exec_mem_read (by simp) (by simp)⟩

end Sys2Proof.Machine

/-! ## 30_encoding.md R46 to R58: the decoder and the encoder are inverse, and the no-op's words are the unassigned ones. -/

namespace Sys2Proof

/-! ### The unassigned words -/

/-- The unassigned words by their fields, as 30_encoding.md R56 lists them. -/
theorem isUnassigned_iff (w : Word) : isUnassigned w = true ↔
    ((fieldOp w).toNat = 0x0 ∧ (fieldN w).toNat ∉ [0x0, 0xE]) ∨
    ((fieldOp w).toNat = 0x8 ∧ (fieldN w).toNat ∈ [0x8, 0x9, 0xA, 0xB, 0xC, 0xD, 0xF]) ∨
    ((fieldOp w).toNat = 0xE ∧ (fieldN w).toNat ∉ [0x1, 0xE]) ∨
    ((fieldOp w).toNat = 0xF ∧ (fieldKK w).toNat ∉ [0x07, 0x0A, 0x15, 0x18, 0x1E, 0x29, 0x33, 0x55, 0x65]) := by
  have eop : w.extractLsb' 12 4 = fieldOp w := rfl
  have en : w.extractLsb' 0 4 = fieldN w := rfl
  have ekk : w.extractLsb' 0 8 = fieldKK w := rfl
  simp only [isUnassigned, eop, en, ekk]
  split <;> simp_all

/-- An unassigned word falls through the table of its group (30_encoding.md R56). -/
theorem decodeWord_of_isUnassigned {w : Word} (h : isUnassigned w = true) : decodeWord w = .nop w := by
  obtain ⟨hop, hn⟩ | ⟨hop, hn⟩ | ⟨hop, hn⟩ | ⟨hop, hkk⟩ := (isUnassigned_iff w).mp h
  · simp only [decodeWord, hop, decodeGroup0]
    split <;> simp_all
  · simp only [decodeWord, hop, decodeGroup8]
    split <;> simp_all
  · simp only [decodeWord, hop, decodeGroupE]
    split <;> simp_all
  · simp only [decodeWord, hop, decodeGroupF]
    split <;> simp_all

/-! ### Decode after encode -/

/-- The decoder reads back the fields of each format of 30_encoding.md R49, and finds the row by its fixed ones. -/
theorem decodeWord_encodeWord {i : Instr} (h : i.wellFormed = true) : decodeWord (encodeWord i) = i := by
  cases i with
  | nop w => exact decodeWord_of_isUnassigned h
  | cls | ret => simp [encodeWord, decodeWord, decodeGroup0]
  | jp | call | ldI | jpV0 => simp [encodeWord, decodeWord]
  | seImm | sneImm | ldImm | addImm | rnd => simp [encodeWord, decodeWord]
  | seReg | sneReg | drw => simp [encodeWord, decodeWord]
  | ldReg | orReg | andReg | xorReg | addReg | subReg | shr | subn | shl => simp [encodeWord, decodeWord, decodeGroup8]
  | sknp | skp => simp [encodeWord, decodeWord, decodeGroupE]
  | ldVxDt | ldVxK | ldDtVx | ldStVx | addI | ldF | ldB | storeRegs | loadRegs =>
    simp [encodeWord, decodeWord, decodeGroupF]

/-- Settles O1: the two bytes compose to the instruction's word, which decodes to it. -/
theorem decodeOfEncodeIsTheInstruction : Obligations.DecodeOfEncodeIsTheInstruction := by
  intro i rest h
  rw [encode, decode_bytesOfWord, decodeWord_encodeWord h]

/-! ### Encode after decode -/

section Repack
variable {w : Word} {k j : Nat}

/-- A word is its `x` and `y` between the leading and trailing nibbles the dispatch found. -/
theorem packXYN_of_op_n (hop : (fieldOp w).toNat = k) (hn : (fieldN w).toNat = j) :
    packXYN (BitVec.ofNat 4 k) (fieldX w) (fieldY w) (BitVec.ofNat 4 j) = w := by
  rw [← field_eq_ofNat hop, ← field_eq_ofNat hn, packXYN_fields]

/-- A word is its `x`, `y` and `n` after the leading nibble the dispatch found. -/
theorem packXYN_of_op (hop : (fieldOp w).toNat = k) : packXYN (BitVec.ofNat 4 k) (fieldX w) (fieldY w) (fieldN w) = w := by
  rw [← field_eq_ofNat hop, packXYN_fields]

/-- A word is its `x` and `kk` after the leading nibble the dispatch found. -/
theorem packXKK_of_op (hop : (fieldOp w).toNat = k) : packXKK (BitVec.ofNat 4 k) (fieldX w) (fieldKK w) = w := by
  rw [← field_eq_ofNat hop, packXKK_fields]

/-- A word is its `x` between the leading nibble and the trailing byte the dispatch found. -/
theorem packXKK_of_op_kk (hop : (fieldOp w).toNat = k) (hkk : (fieldKK w).toNat = j) :
    packXKK (BitVec.ofNat 4 k) (fieldX w) (BitVec.ofNat 8 j) = w := by
  rw [← field_eq_ofNat hop, ← field_eq_ofNat hkk, packXKK_fields]

/-- A word is its `nnn` after the leading nibble the dispatch found. -/
theorem packNNN_of_op (hop : (fieldOp w).toNat = k) : packNNN (BitVec.ofNat 4 k) (fieldNNN w) = w := by
  rw [← field_eq_ofNat hop, packNNN_fields]

/-- A word of group 0 is its bits 11..4 and the trailing nibble the dispatch found. -/
theorem packZ_of_n (hop : (fieldOp w).toNat = 0x0) (hn : (fieldN w).toNat = j) : packZ (fieldMid w) (BitVec.ofNat 4 j) = w := by
  rw [← field_eq_ofNat hn, packZ_fields _ (field_eq_ofNat hop)]

end Repack

/-- The instruction is well formed and its word is `w`. -/
def Instr.IsOf (i : Instr) (w : Word) : Prop := i.wellFormed = true ∧ encodeWord i = w

/-- The word of a well-formed instruction decodes to it. -/
theorem Instr.IsOf.decodeWord_eq {i : Instr} {w : Word} (h : i.IsOf w) : decodeWord w = i := by
  obtain ⟨hwf, rfl⟩ := h
  exact decodeWord_encodeWord hwf

/-! Each secondary table gives a word of its group back: its rows fix the bits they do not keep, and the words that fall
through are unassigned (30_encoding.md R52 to R56). -/

/-- Every word of group 0 (R52). -/
theorem decodeGroup0_isOf {w : Word} (hop : (fieldOp w).toNat = 0x0) : (decodeGroup0 w).IsOf w := by
  unfold decodeGroup0
  split
  next hn => exact ⟨rfl, packZ_of_n hop hn⟩
  next hn => exact ⟨rfl, packZ_of_n hop hn⟩
  next => exact ⟨(isUnassigned_iff w).mpr (by simp_all), rfl⟩

/-- Every word of group 8 (R53). -/
theorem decodeGroup8_isOf {w : Word} (hop : (fieldOp w).toNat = 0x8) : (decodeGroup8 w).IsOf w := by
  unfold decodeGroup8
  split
  case h_10 =>
    have hlt := (fieldN w).isLt
    exact ⟨(isUnassigned_iff w).mpr (by simp_all; omega), rfl⟩
  all_goals exact ⟨rfl, packXYN_of_op_n hop ‹_›⟩

/-- Every word of group E (R54). -/
theorem decodeGroupE_isOf {w : Word} (hop : (fieldOp w).toNat = 0xE) : (decodeGroupE w).IsOf w := by
  unfold decodeGroupE
  split
  next hn => exact ⟨rfl, packXYN_of_op_n hop hn⟩
  next hn => exact ⟨rfl, packXYN_of_op_n hop hn⟩
  next => exact ⟨(isUnassigned_iff w).mpr (by simp_all), rfl⟩

/-- Every word of group F (R55). -/
theorem decodeGroupF_isOf {w : Word} (hop : (fieldOp w).toNat = 0xF) : (decodeGroupF w).IsOf w := by
  unfold decodeGroupF
  split
  case h_10 => exact ⟨(isUnassigned_iff w).mpr (by simp_all), rfl⟩
  all_goals exact ⟨rfl, packXKK_of_op_kk hop ‹_›⟩

/-- The primary dispatch gives every word back, by its format or by its group's table (30_encoding.md R51, R58). -/
theorem decodeWord_isOf (w : Word) : (decodeWord w).IsOf w := by
  have hlt := (fieldOp w).isLt
  unfold decodeWord
  split
  case h_1 hop => exact decodeGroup0_isOf hop
  case h_9 hop => exact decodeGroup8_isOf hop
  case h_15 hop => exact decodeGroupE_isOf hop
  case h_16 => simp only [imp_false] at *; exact decodeGroupF_isOf (by omega)
  case h_2 | h_3 | h_11 | h_12 => exact ⟨rfl, packNNN_of_op ‹_›⟩
  case h_4 | h_5 | h_7 | h_8 | h_13 => exact ⟨rfl, packXKK_of_op ‹_›⟩
  case h_6 | h_10 | h_14 => exact ⟨rfl, packXYN_of_op ‹_›⟩

/-- Settles O2: the fields the decoder keeps and the numbers the dispatch found are all of the word. -/
theorem encodeOfDecodeIsTheWord : Obligations.EncodeOfDecodeIsTheWord := decodeWord_isOf

/-! ### The no-op -/

/-- A word decodes to the no-op exactly when it is unassigned: what it decodes to is well formed (30_encoding.md R56). -/
theorem decodeWord_eq_nop_iff (w : Word) : decodeWord w = .nop w ↔ isUnassigned w = true := by
  refine ⟨fun h => ?_, decodeWord_of_isUnassigned⟩
  obtain ⟨hwf, -⟩ := decodeWord_isOf w
  rwa [h] at hwf

/-- Settles O4: the fields of the unassigned words, read as numbers; the no-op's meaning is its state. -/
theorem unassignedWordsAreTheNoOps : Obligations.UnassignedWordsAreTheNoOps := by
  refine ⟨fun w => ?_, fun w s => rfl⟩
  rw [decodeWord_eq_nop_iff, isUnassigned_iff, fieldOp_toNat, fieldN_toNat, fieldKK_toNat]

/-! ### Words the spec writes out -/

/-- Settles O3: each of the sixteen words is decoded. -/
theorem specWordsDecode : Obligations.SpecWordsDecode :=
  ⟨rfl, rfl, rfl, rfl, rfl, rfl, rfl, rfl, rfl, rfl, rfl, rfl, rfl, rfl, rfl, rfl⟩

end Sys2Proof

/-! ## 30_encoding.md R45, R46, R56: the step, and the step of an unassigned word. -/

namespace Sys2Proof.Machine

/-- A step whose fetch answers `w` (30_encoding.md R45). -/
theorem step_of_fetch {s : State} {w : Word} (hw : fetch s = .ok w) :
    step s = thenEpilogue (exec (decodeWord w) s.advancePc) := by rw [step, hw]

/-- A step whose fetch leaves the array (30_encoding.md R46). -/
theorem step_of_pc_gt {s : State} (h : 0xFFE < s.pc.toNat) : step s = .fault (.fetchOutOfRange s.pc) :=
  (step_fault_iff s _).mpr (.inl (fetch_of_gt s h))

/-- Settles O6: a fetch reads both bytes or leaves the array, and the epilogue goes by the kind of the outcome. -/
theorem stepRunsTheDecodedInstruction : Obligations.StepRunsTheDecodedInstruction := by
  refine fun s => ⟨step_of_pc_gt, fun h => ⟨_, _, read_of_lt _ _ (by omega), read_of_lt _ _ (by omega)⟩,
    fun hi lo w hhi hlo hw => ?_⟩
  obtain rfl : w = composeWord hi lo := BitVec.eq_of_toNat_eq (hw.trans (composeWord_toNat hi lo).symm)
  refine ⟨rfl, ?_⟩
  rw [step_of_fetch (fetch_of_read s hi lo hhi hlo), State.advancePc]
  cases exec (decodeWord (composeWord hi lo)) { s with pc := s.pc + 2#16 } <;> rfl

/-- Settles O8: the no-op leaves the state with `PC` advanced, and the epilogue counts the timers. -/
theorem noOpStepChangesPcAndTimers : Obligations.NoOpStepChangesPcAndTimers := by
  intro s w hw hun
  have hexec : exec (decodeWord w) s.advancePc = .next s.advancePc := by rw [decodeWord_of_isUnassigned hun]; rfl
  refine ⟨s.advancePc.epilogue, step_next s _ w hw hexec, rfl, countDown_toNat s.dt, countDown_toNat s.st, ?_⟩
  exact changesOnly_trans (changesOnly_mono (changesOnly_pc s _) fun _ => Or.inl)
    (changesOnly_mono (changesOnly_epilogue _) fun _ => Or.inr)

end Sys2Proof.Machine

/-! ## 30_encoding.md R57: the bits the dispatch does not examine and the instruction does not use. -/

namespace Sys2Proof

/-! ### The fields under the masks of R57 -/

section Masked
variable {v w : Word}

/-- A word seen through a mask agrees with what is seen of it. -/
theorem and_mask_eq_and_mask {mask : Word} (h : w &&& mask = v) : w &&& mask = v &&& mask := by
  rw [← h, BitVec.and_assoc, BitVec.and_self]

theorem fieldOp_eq_of_F000 (h : w &&& 0xF000#16 = v) : fieldOp w = fieldOp v :=
  fieldOp_of_masked 0xF000#16 (by decide) (and_mask_eq_and_mask h)

theorem fields_eq_of_F00F (h : w &&& 0xF00F#16 = v) : fieldOp w = fieldOp v ∧ fieldN w = fieldN v :=
  ⟨fieldOp_of_masked 0xF00F#16 (by decide) (and_mask_eq_and_mask h),
    fieldN_of_masked 0xF00F#16 (by decide) (and_mask_eq_and_mask h)⟩

theorem fields_eq_of_FF0F (h : w &&& 0xFF0F#16 = v &&& 0xFF0F#16) :
    fieldOp w = fieldOp v ∧ fieldX w = fieldX v ∧ fieldN w = fieldN v :=
  ⟨fieldOp_of_masked _ (by decide) h, fieldX_of_masked _ (by decide) h, fieldN_of_masked _ (by decide) h⟩

theorem fields_eq_of_FFF0 (h : w &&& 0xFFF0#16 = v &&& 0xFFF0#16) :
    fieldOp w = fieldOp v ∧ fieldX w = fieldX v ∧ fieldY w = fieldY v :=
  ⟨fieldOp_of_masked _ (by decide) h, fieldX_of_masked _ (by decide) h, fieldY_of_masked _ (by decide) h⟩

end Masked

end Sys2Proof

namespace Sys2Proof.Machine

/-! ### Rows of a table whose meaning does not read one field -/

section Ignored
variable {w w' c : Word} {s : State}

/-- Format `Z` (30_encoding.md R52): a row of group 0 reads no field. -/
theorem exec_eq_of_ignoredMid {f : Byte → Instr} (h : w &&& 0xF00F#16 = c) (h' : w' &&& 0xF00F#16 = c) (hc : fieldOp c = 0x0#4)
    (hf : ∀ mid, (f mid).IsOf (packZ mid (fieldN c))) (hexec : ∀ mid mid', exec (f mid) s = exec (f mid') s) :
    exec (decodeWord w) s = exec (decodeWord w') s := by
  have hrow : ∀ {v}, v &&& 0xF00F#16 = c → decodeWord v = f (fieldMid v) := fun {v} hv => by
    obtain ⟨hop, hn⟩ := fields_eq_of_F00F hv
    have hv := hf (fieldMid v)
    rw [← hn, packZ_fields v (hop.trans hc)] at hv
    exact hv.decodeWord_eq
  rw [hrow h, hrow h', hexec]

/-- Formats `XS4` and `XYS` (30_encoding.md R53, R54): a row of group 8 or E that reads `x` alone. -/
theorem exec_eq_of_ignoredY {f : Nibble → Nibble → Instr} (hc : w &&& 0xF00F#16 = c)
    (h : w &&& 0xFF0F#16 = w' &&& 0xFF0F#16) (hf : ∀ x y, (f x y).IsOf (packXYN (fieldOp c) x y (fieldN c)))
    (hexec : ∀ x y y', exec (f x y) s = exec (f x y') s) : exec (decodeWord w) s = exec (decodeWord w') s := by
  have hrow : ∀ {v}, fieldOp v = fieldOp c → fieldN v = fieldN c → decodeWord v = f (fieldX v) (fieldY v) := fun {v} hop hn => by
    have hv := hf (fieldX v) (fieldY v)
    rw [← hop, ← hn, packXYN_fields] at hv
    exact hv.decodeWord_eq
  obtain ⟨hop, hn⟩ := fields_eq_of_F00F hc
  obtain ⟨hop', hx, hn'⟩ := fields_eq_of_FF0F h
  rw [hrow hop hn, hrow (hop'.symm.trans hop) (hn'.symm.trans hn), hx, hexec]

/-- Format `XY` (30_encoding.md R51): a leading nibble whose row reads `x` and `y` and no trailing nibble. -/
theorem exec_eq_of_ignoredN {f : Nibble → Nibble → Nibble → Instr} (hc : w &&& 0xF000#16 = c)
    (h : w &&& 0xFFF0#16 = w' &&& 0xFFF0#16) (hf : ∀ x y n, (f x y n).IsOf (packXYN (fieldOp c) x y n))
    (hexec : ∀ x y n n', exec (f x y n) s = exec (f x y n') s) : exec (decodeWord w) s = exec (decodeWord w') s := by
  have hrow : ∀ {v}, fieldOp v = fieldOp c → decodeWord v = f (fieldX v) (fieldY v) (fieldN v) := fun {v} hop => by
    have hv := hf (fieldX v) (fieldY v) (fieldN v)
    rw [← hop, packXYN_fields] at hv
    exact hv.decodeWord_eq
  have hop := fieldOp_eq_of_F000 hc
  obtain ⟨hop', hx, hy⟩ := fields_eq_of_FFF0 h
  rw [hrow hop, hrow (hop'.symm.trans hop), hx, hy, hexec]

end Ignored

/-- Settles O5: the eight rows, each with the field its meaning does not read. -/
theorem ignoredBitsDoNotMatter : Obligations.IgnoredBitsDoNotMatter := by
  rintro w w' s (⟨h, h'⟩ | ⟨h, h'⟩ | ⟨hc, h⟩ | ⟨hc, h⟩ | ⟨hc, h⟩ | ⟨hc, h⟩ | ⟨hc, h⟩ | ⟨hc, h⟩)
  · exact exec_eq_of_ignoredMid (f := .cls) h h' rfl (fun _ => ⟨rfl, rfl⟩) fun _ _ => rfl
  · exact exec_eq_of_ignoredMid (f := .ret) h h' rfl (fun _ => ⟨rfl, rfl⟩) fun _ _ => rfl
  · exact exec_eq_of_ignoredN (f := .seReg) hc h (fun _ _ _ => ⟨rfl, rfl⟩) fun _ _ _ _ => rfl
  · exact exec_eq_of_ignoredN (f := .sneReg) hc h (fun _ _ _ => ⟨rfl, rfl⟩) fun _ _ _ _ => rfl
  · exact exec_eq_of_ignoredY (f := .skp) hc h (fun _ _ => ⟨rfl, rfl⟩) fun _ _ _ => rfl
  · exact exec_eq_of_ignoredY (f := .sknp) hc h (fun _ _ => ⟨rfl, rfl⟩) fun _ _ _ => rfl
  · exact exec_eq_of_ignoredY (f := .shr) hc h (fun _ _ => ⟨rfl, rfl⟩) fun _ _ _ => rfl
  · exact exec_eq_of_ignoredY (f := .shl) hc h (fun _ _ => ⟨rfl, rfl⟩) fun _ _ _ => rfl

end Sys2Proof.Machine

/-! ## 40_control_transfer.md R60 to R64: jumps, calls and returns. -/

namespace Sys2Proof.Machine

/-! ### The targets -/

/-- An indexed jump's target is the sum of its operands: it never wraps (40_control_transfer.md R63; decision D14, log 14). -/
theorem zextAddr_add_zextByte_toNat (nnn : Addr12) (b : Byte) :
    (zextAddr nnn + zextByte b).toNat = nnn.toNat + b.toNat := by
  have := nnn.isLt
  have := b.isLt
  simp; omega

/-- Settles O24: both jumps are an update of `PC` alone, and neither target is reduced. -/
theorem jumpsGoToTheirTarget : Obligations.JumpsGoToTheirTarget := fun nnn s =>
  ⟨⟨_, rfl, zextAddr_toNat nnn, changesOnly_pc s _⟩, _, rfl, zextAddr_add_zextByte_toNat nnn _, changesOnly_pc s _⟩

/-! ### Calls and returns -/

/-- Settles O25: the two cases of a call; below 16, `SP` names the entry the push writes. -/
theorem callPushesTheReturnAddress : Obligations.CallPushesTheReturnAddress := by
  intro nnn s
  obtain ⟨hfull, e⟩ | ⟨hroom, e⟩ := execCall_cases nnn s
  · exact ⟨fun k hk => by omega, fun _ => e⟩
  · refine ⟨fun k hk => ⟨_, e, ?_, ?_, zextAddr_toNat nnn, changesOnly_push s k hk _ _⟩, fun hfull => by omega⟩
    · rw [execCall_stack e, if_pos hk]
    · simp; omega

/-- Settles O26: the three cases of a return; only `SP` and `PC` are written, so the entry popped stays. -/
theorem returnPopsTheReturnAddress : Obligations.ReturnPopsTheReturnAddress := by
  intro ign s
  obtain ⟨hsp, e⟩ | ⟨hsp, e⟩ | ⟨k, hsp, e⟩ := execRet_cases s
  · exact ⟨fun k hk => by omega, fun _ => e, fun h => by omega⟩
  · exact ⟨fun k hk => by omega, fun h => by omega, fun _ => e⟩
  · refine ⟨fun j hj => ?_, fun h => by omega, fun h => by omega⟩
    obtain rfl : j = k := Fin.ext (by omega)
    exact ⟨_, e, rfl, by simp; omega, changesOnly_sp_pc s _ _⟩

/-- Settles O27: the entry the call pushed to is the one the return pops, on the stack the call left. -/
theorem returnResumesAfterTheCall : Obligations.ReturnResumesAfterTheCall := by
  intro nnn ign s t u hcall hsp hstack
  obtain ⟨hroom, ht⟩ := next_of_fault_or_next (execCall_cases nnn s) hcall
  obtain ⟨hpush, -⟩ := callPushesTheReturnAddress nnn s
  obtain ⟨t', hcall', htop, hcount, -, -⟩ := hpush ⟨s.sp.toNat, hroom⟩ rfl
  obtain rfl := next_unique hcall hcall'
  obtain ⟨hpop, -, -⟩ := returnPopsTheReturnAddress ign u
  obtain ⟨r, hret, hpc, hrsp, -⟩ := hpop ⟨s.sp.toNat, hroom⟩ (by rw [hsp, hcount])
  exact ⟨r, hret, by simp only [hpc, hstack, htop], BitVec.eq_of_toNat_eq hrsp⟩

end Sys2Proof.Machine

/-! ## 60_exceptions.md R118, R119, 70_reset_and_hazards.md R137: a step that only counts the timers, taken any number of
times. -/

namespace Sys2Proof.Machine

section Idle
variable (s : State) (n : Nat)

/-! ### The epilogue any number of times -/

@[simp] theorem epilogue_iterate_pc : (State.epilogue^[n] s).pc = s.pc := by
  induction n with
  | zero => rfl
  | succ n ih => rw [Function.iterate_succ_apply', epilogue_pc, ih]

theorem epilogue_iterate_dt : (State.epilogue^[n] s).dt.toNat = s.dt.toNat - n := by
  induction n with
  | zero => rfl
  | succ n ih => rw [Function.iterate_succ_apply', epilogue_dt, countDown_toNat, ih, Nat.sub_sub]

theorem epilogue_iterate_st : (State.epilogue^[n] s).st.toNat = s.st.toNat - n := by
  induction n with
  | zero => rfl
  | succ n ih => rw [Function.iterate_succ_apply', epilogue_st, countDown_toNat, ih, Nat.sub_sub]

theorem changesOnly_epilogue_iterate : ChangesOnly (fun p => p = .dt ∨ p = .st) s (State.epilogue^[n] s) := by
  induction n with
  | zero => exact changesOnly_refl _ s
  | succ n ih => rw [Function.iterate_succ_apply']; exact changesOnly_trans ih (changesOnly_epilogue _)

/-- The timers are no part of what a fetch reads (30_encoding.md R46). -/
@[simp] theorem fetch_epilogue_iterate : fetch (State.epilogue^[n] s) = fetch s := by
  induction n with
  | zero => rfl
  | succ n ih => rw [Function.iterate_succ_apply', ← ih]; exact fetch_congr (fun _ => rfl) rfl

/-- A run each of whose steps does no more than its epilogue (70_reset_and_hazards.md R137). -/
theorem run_of_step_eq_epilogue {s : State} (h : ∀ k, step (State.epilogue^[k] s) = .next (State.epilogue^[k] s).epilogue) :
    Host.Core.run core n s = .next (State.epilogue^[n] s) := by
  induction n with
  | zero => rfl
  | succ n ih => rw [Function.iterate_succ_apply']; exact run_snoc n s _ _ ih (h n)

end Idle

/-! ### A jump to its own address -/

/-- A jump to the address it was fetched from puts back the `PC` the step advanced (40_control_transfer.md R60). -/
theorem step_of_selfJump {s : State} {w : Word} {nnn : Addr12} (hw : fetch s = .ok w) (hjp : decodeWord w = .jp nnn)
    (hpc : s.pc.toNat = nnn.toNat) : step s = .next s.epilogue := by
  have htarget : zextAddr nnn = s.pc := BitVec.eq_of_toNat_eq ((zextAddr_toNat nnn).trans hpc.symm)
  refine step_next s s w hw ?_
  rw [hjp]
  show execJp nnn s.advancePc = .next s
  rw [execJp, htarget, State.advancePc]

/-- Settles O53: each step is the epilogue alone, which leaves the jump where it is for the next. -/
theorem selfJumpLeavesAllButTheTimers : Obligations.SelfJumpLeavesAllButTheTimers := by
  intro s w nnn hw hjp hpc n
  have hidle : ∀ k, step (State.epilogue^[k] s) = .next (State.epilogue^[k] s).epilogue := fun k =>
    step_of_selfJump ((fetch_epilogue_iterate s k).trans hw) hjp (by rw [epilogue_iterate_pc, hpc])
  exact ⟨_, run_of_step_eq_epilogue n hidle, epilogue_iterate_pc s n, epilogue_iterate_dt s n, epilogue_iterate_st s n,
    changesOnly_epilogue_iterate s n⟩

end Sys2Proof.Machine

/-! ## 41_conditional_skip.md R65 to R71: the six skips. -/

namespace Sys2Proof.Machine

/-! ### Where a skip leaves `PC` -/

/-- A skip on equality (41_conditional_skip.md R65, R67). -/
theorem skipIf_beq_pc (s : State) (a b : Byte) : (s.skipIf (a == b)).pc = if a = b then s.pc + 2#16 else s.pc :=
  (skipIf_pc s _).trans (if_congr beq_iff_eq rfl rfl)

/-- A skip on a condition that does not hold (41_conditional_skip.md R70). -/
theorem skipIf_not_pc (s : State) (c : Bool) : (s.skipIf !c).pc = if c then s.pc else s.pc + 2#16 := by cases c <;> rfl

/-- A skip on difference (41_conditional_skip.md R66, R68). -/
theorem skipIf_bne_pc (s : State) (a b : Byte) : (s.skipIf (a != b)).pc = if a = b then s.pc else s.pc + 2#16 :=
  (skipIf_not_pc s _).trans (if_congr beq_iff_eq rfl rfl)

/-- A skip moves `PC` by 0 or 2 (41_conditional_skip.md R71). -/
theorem skipIf_pc_eq_or (s : State) (c : Bool) : (s.skipIf c).pc = s.pc ∨ (s.skipIf c).pc = s.pc + 2#16 := by
  cases c
  · exact .inl rfl
  · exact .inr rfl

/-- Settles O28: each compare is a skip on its condition. -/
theorem compareSkips : Obligations.CompareSkips := fun _ _ _ _ s =>
  ⟨⟨_, rfl, skipIf_beq_pc s _ _, changesOnly_skipIf s _⟩, ⟨_, rfl, skipIf_bne_pc s _ _, changesOnly_skipIf s _⟩,
    ⟨_, rfl, skipIf_beq_pc s _ _, changesOnly_skipIf s _⟩, _, rfl, skipIf_bne_pc s _ _, changesOnly_skipIf s _⟩

/-! ### The key skips -/

section KeyCases
variable {o : Host.Outcome State Fault Refusal} {n : Nat} {f : Fault} {g : Fin 16 → State}

/-- A meaning that reads a key completes when its number names one (41_conditional_skip.md R69, R70). -/
theorem next_of_key_cases (h : (15 < n ∧ o = .fault f) ∨ ∃ j : Fin 16, j.val = n ∧ o = .next (g j)) {k : Fin 16}
    (hk : k.val = n) : o = .next (g k) := by
  obtain ⟨hn, -⟩ | ⟨j, hj, e⟩ := h
  · omega
  · rwa [Fin.ext (hk.trans hj.symm)]

/-- A meaning that reads a key is undefined U6 when its number names none (41_conditional_skip.md R69, R70; log 8). -/
theorem fault_of_key_cases (h : (15 < n ∧ o = .fault f) ∨ ∃ j : Fin 16, j.val = n ∧ o = .next (g j)) (hn : 15 < n) :
    o = .fault f := by
  obtain ⟨-, e⟩ | ⟨j, hj, -⟩ := h
  · exact e
  · omega

end KeyCases

/-- Settles O29: the two cases of each key skip, by whether `V[x]` names a key. -/
theorem keySkips : Obligations.KeySkips := fun x _ s =>
  ⟨fun _ hk =>
    ⟨⟨_, next_of_key_cases (execSkp_cases x s) hk, skipIf_pc s _, changesOnly_skipIf s _⟩,
      _, next_of_key_cases (execSknp_cases x s) hk, skipIf_not_pc s _, changesOnly_skipIf s _⟩,
    fun hx => ⟨fault_of_key_cases (execSkp_cases x s) hx, fault_of_key_cases (execSknp_cases x s) hx⟩⟩

/-! ### What the six have in common -/

/-- Whenever the instruction completes, it is a skip. -/
def SkipsWhenNext (i : Instr) : Prop := ∀ ⦃s t : State⦄, exec i s = .next t → ∃ c, t = s.skipIf c

/-- Six instructions are skips (41_conditional_skip.md R65 to R70). -/
theorem skipsWhenNext {i : Instr}
    (hi : (∃ x kk, i = .seImm x kk ∨ i = .sneImm x kk) ∨ (∃ x y ign, i = .seReg x y ign ∨ i = .sneReg x y ign) ∨
      (∃ x ign, i = .skp x ign ∨ i = .sknp x ign)) : SkipsWhenNext i := by
  intro s t h
  obtain ⟨x, kk, hi⟩ | ⟨x, y, ign, hi⟩ | ⟨x, ign, rfl | rfl⟩ := hi
  · obtain rfl | rfl := hi <;> exact ⟨_, (Host.Outcome.next.inj h).symm⟩
  · obtain rfl | rfl := hi <;> exact ⟨_, (Host.Outcome.next.inj h).symm⟩
  · exact execSkp_next h
  · exact execSknp_next h

/-- The step of a skip: `PC` past the instruction, the skip, the timers (41_conditional_skip.md R71). -/
theorem SkipsWhenNext.step_eq {s t : State} {w : Word} (hi : SkipsWhenNext (decodeWord w)) (hw : fetch s = .ok w)
    (h : step s = .next t) : ∃ c, t = (s.advancePc.skipIf c).epilogue := by
  obtain ⟨w', m, hw', he, rfl⟩ := (step_next_iff s t).mp h
  obtain rfl := Except.ok.inj (hw'.symm.trans hw)
  obtain ⟨c, rfl⟩ := hi he
  exact ⟨c, rfl⟩

/-- A skip taken at one of the last addresses where an instruction can be fetched leaves the array
(41_conditional_skip.md R71). -/
theorem pc_add_four_toNat_ge {s : State} {w : Word} (hw : fetch s = .ok w) (h : 0xFFC ≤ s.pc.toNat) :
    0x1000 ≤ (s.pc + 4#16).toNat := by
  obtain ⟨hpc, -⟩ := (fetch_eq_ok_iff s w).mp hw
  simp; omega

/-- Settles O30: a skip that completes is `State.skipIf`, after which a step only counts the timers. -/
theorem skipsWritePcAlone : Obligations.SkipsWritePcAlone := by
  intro i hi
  have hskip := skipsWhenNext hi
  refine ⟨fun s t h => ?_, fun s t w hw hdec h => ?_⟩
  · obtain ⟨c, rfl⟩ := hskip h
    exact ⟨changesOnly_skipIf s c, skipIf_getV s _ c, skipIf_pc_eq_or s c⟩
  · subst hdec
    obtain ⟨c, rfl⟩ := hskip.step_eq hw h
    refine ⟨?_, ?_, ?_, fun htaken hpc => ?_⟩
    · rw [epilogue_dt, countDown_toNat, skipIf_dt, advancePc_dt]
    · rw [epilogue_st, countDown_toNat, skipIf_st, advancePc_st]
    · have hpc := skipIf_pc_eq_or s.advancePc c
      rwa [advancePc_pc, BitVec.add_assoc] at hpc
    · have hout := pc_add_four_toNat_ge hw hpc
      rw [← htaken] at hout
      exact ⟨hout, step_of_pc_gt (by omega)⟩

end Sys2Proof.Machine

/-! ## 42_transfer_immediate.md R72 to R75: transfers and the immediate addition. -/

namespace Sys2Proof.Machine

/-- Settles O31: each of the three is one `State.setV`; the addition's byte is the sum modulo 256 (R74). -/
theorem transfersWriteOneRegister : Obligations.TransfersWriteOneRegister := by
  intro x y kk s
  refine ⟨⟨s.setV x kk, rfl, getV_setV_self s x kk, changesOnly_setV s x kk⟩,
    ⟨s.setV x (s.getV y), rfl, getV_setV_self s x _, changesOnly_setV s x _⟩,
    s.setV x (s.getV x + kk), rfl, ?_, changesOnly_setV s x _⟩
  rw [getV_setV_self, BitVec.toNat_add]

end Sys2Proof.Machine

/-! ## 43_alu.md R76 to R86: the bitwise and arithmetic instructions on register pairs. -/

namespace Sys2Proof.Machine

/-- Settles O32: each of the three is one `State.setV` (R86; decision D16, log 16); its byte is the bitwise result. -/
theorem bitwiseWritesNoFlag : Obligations.BitwiseWritesNoFlag := by
  intro x y s
  refine ⟨⟨s.setV x (s.getV x ||| s.getV y), rfl, fun j _ => ?_, changesOnly_setV s x _⟩,
    ⟨s.setV x (s.getV x &&& s.getV y), rfl, fun j _ => ?_, changesOnly_setV s x _⟩,
    s.setV x (s.getV x ^^^ s.getV y), rfl, fun j _ => ?_, changesOnly_setV s x _⟩
  · rw [getV_setV_self, BitVec.getLsbD_or]
  · rw [getV_setV_self, BitVec.getLsbD_and]
  · rw [getV_setV_self, BitVec.getLsbD_xor]

/-! ### Results and flags as numbers (43_alu.md R84) -/

section Numbers
variable (a b : Byte)

theorem flagByte_decide_toNat (p : Prop) [Decidable p] : (flagByte (decide p)).toNat = if p then 1 else 0 := by
  by_cases hp : p <;> simp [flagByte, hp]

theorem flagByte_carry_toNat : (flagByte (carry a b)).toNat = if a.toNat + b.toNat > 255 then 1 else 0 :=
  flagByte_decide_toNat _

theorem flagByte_strictlyGreater_toNat : (flagByte (strictlyGreater a b)).toNat = if a.toNat > b.toNat then 1 else 0 :=
  flagByte_decide_toNat _

theorem flagByte_lowBit_toNat : (flagByte (lowBit a)).toNat = a.toNat % 2 := by
  have hflag : (flagByte (lowBit a)).toNat = if a.toNat % 2 = 1 then 1 else 0 := flagByte_decide_toNat _
  split at hflag <;> omega

theorem flagByte_highBit_toNat : (flagByte (highBit a)).toNat = if a.toNat ≥ 128 then 1 else 0 :=
  flagByte_decide_toNat _

theorem byte_sub_toNat : (a - b).toNat = (256 + a.toNat - b.toNat) % 256 := by
  have hb := b.isLt
  rw [BitVec.toNat_sub]
  omega

theorem byte_ushiftRight_one_toNat : (a >>> 1).toNat = a.toNat / 2 := by
  rw [BitVec.toNat_ushiftRight, Nat.shiftRight_one]

theorem byte_shiftLeft_one_toNat : (a <<< 1).toNat = 2 * a.toNat % 256 := by
  rw [BitVec.toNat_shiftLeft, Nat.shiftLeft_eq, Nat.mul_comm]

end Numbers

/-! ### The instructions with a flag -/

/-- What an instruction that writes a result and a flag leaves, given the two as numbers: the flag is written last, so `VF` holds
it whatever `x` is (43_alu.md R85; decision D6, log 9). -/
theorem next_of_setVAndFlag {o : Host.Outcome State Fault Refusal} {s : State} {x : Nibble} {r : Byte} {c : Bool}
    {flag result : Nat} (ho : o = .next (s.setVAndFlag x r c)) (hflag : (flagByte c).toNat = flag) (hr : r.toNat = result) :
    ∃ t, o = .next t ∧ (t.getV regF).toNat = flag ∧ (x ≠ regF → (t.getV x).toNat = result) ∧
      ChangesOnly (fun p => p = .v x ∨ p = .v regF) s t :=
  ⟨_, ho, by rw [setVAndFlag_regF, hflag], fun hx => by rw [setVAndFlag_dest s x r c hx, hr],
    changesOnly_setVAndFlag s x r c⟩

/-- Settles O33: the flag and the result of each, as numbers. -/
theorem addAndSubtractSetTheFlag : Obligations.AddAndSubtractSetTheFlag := by
  rintro x y s _ _ rfl rfl
  exact ⟨next_of_setVAndFlag rfl (flagByte_carry_toNat _ _) (BitVec.toNat_add _ _),
    next_of_setVAndFlag rfl (flagByte_strictlyGreater_toNat _ _) (byte_sub_toNat _ _),
    next_of_setVAndFlag rfl (flagByte_strictlyGreater_toNat _ _) (byte_sub_toNat _ _)⟩

/-- Settles O34: the bit shifted out and the result of each, as numbers; `y` is in neither (decision D16, log 16). -/
theorem shiftsSetTheFlag : Obligations.ShiftsSetTheFlag := by
  rintro x y s _ rfl
  exact ⟨next_of_setVAndFlag rfl (flagByte_lowBit_toNat _) (byte_ushiftRight_one_toNat _),
    next_of_setVAndFlag rfl (flagByte_highBit_toNat _) (byte_shiftLeft_one_toNat _)⟩

end Sys2Proof.Machine

/-! ## 44_random.md R87, R88: the random byte. -/

namespace Sys2Proof.Machine

/-- Settles O35: `RND` is one `State.setV` of the masked byte, with the draw counter moved on (log 1). A bit outside the mask is
ANDed with 0, so nothing is asked of the free byte itself (decision D2). -/
theorem randomByteIsMasked : Obligations.RandomByteIsMasked := by
  intro x kk s
  have hframe := instructionsWriteOnlyTheirParts (.rnd x kk) s _ rfl
  refine ⟨_, rfl, getV_setV_self s x _, fun j _ hj => ?_, rfl, hframe⟩
  change ((s.setV x (Config.rnd s.draw &&& kk)).getV x).getLsbD j = false
  rw [getV_setV_self, BitVec.getLsbD_and, hj, Bool.and_false]

end Sys2Proof.Machine

/-! ## 45_memory_index.md R89 to R95: the index register, the decimal digits and the block transfers. -/

namespace Sys2Proof.Machine

/-- Settles O36: each of the three is one update of `I`; the sum is the 16-bit one (R90; decision D12), and the glyph address is of
the whole byte (R91; decision D13, log 15). -/
theorem indexInstructionsWriteIndexAlone : Obligations.IndexInstructionsWriteIndexAlone := by
  intro x nnn s
  have hsum : (s.i + zextByte (s.getV x)).toNat = (s.i.toNat + (s.getV x).toNat) % 65536 := by
    rw [BitVec.toNat_add, zextByte_toNat]
  exact ⟨⟨_, rfl, zextAddr_toNat nnn, changesOnly_i s _⟩, ⟨_, rfl, hsum, changesOnly_i s _⟩,
    _, rfl, glyphAddr_toNat _, changesOnly_i s _⟩

/-! ### Decimal digits (R92) -/

/-- The three digits of a byte as numbers. -/
theorem decimalDigits_spec (b : Byte) : ∃ h d o : Byte, decimalDigits b = [h, d, o] ∧
    b.toNat = 100 * h.toNat + 10 * d.toNat + o.toNat ∧ h.toNat ≤ 2 ∧ d.toNat ≤ 9 ∧ o.toNat ≤ 9 := by
  have hb := b.isLt
  refine ⟨_, _, _, rfl, ?_⟩
  simp only [BitVec.toNat_ofNat]
  omega

/-- The byte of a stored block at its own offset. -/
theorem read_putBytes_add (m : Memory) (a k : Nat) (bs : List Byte) (h : a + bs.length ≤ 0x1000) (hk : k < bs.length) :
    (m.putBytes a bs).read (a + k) = bs[k]? := by
  rw [read_putBytes _ _ _ _ h, if_pos (by omega), Nat.add_sub_cancel_left]

/-- Settles O37: the block stored is the three digits, in the order of their addresses, or the store leaves the array. -/
theorem decimalDigitsAreStored : Obligations.DecimalDigitsAreStored := by
  intro x s
  refine ⟨fun hi => ?_, fun hi => ((execLdB_cases x s).resolve_right (by omega)).2⟩
  obtain ⟨h, d, o, hdigits, hsum, hh, hd, ho⟩ := decimalDigits_spec (s.getV x)
  have hexec := ((execLdB_cases x s).resolve_left (by omega)).2
  have hframe := execLdB_changesOnly hexec
  rw [hdigits] at hexec hframe
  have hread (k : Nat) (hk : k < 3) : (s.mem.putBytes s.i.toNat [h, d, o]).read (s.i.toNat + k) = [h, d, o][k]? :=
    read_putBytes_add _ _ k [h, d, o] (by simp; omega) hk
  refine ⟨_, h, d, o, hexec, hread 0 (by decide), hread 1 (by decide), hread 2 (by decide), hsum, hh, hd, ho,
    changesOnly_mono hframe ?_⟩
  rintro p ⟨k, hk, rfl⟩
  simp only [Part.mem.injEq]
  omega

/-! ### Block transfers (R93, R94) -/

/-- Settles O38: the store's block is the registers in ascending order, or the store leaves the array. -/
theorem registersAreStored : Obligations.RegistersAreStored := by
  intro x s
  refine ⟨fun hi => ?_, fun hi => ((execStoreRegs_cases x s).resolve_right (by omega)).2⟩
  have hexec := ((execStoreRegs_cases x s).resolve_left (by omega)).2
  refine ⟨_, hexec, fun k hk => execStoreRegs_mem_read hexec hk, changesOnly_mono (execStoreRegs_changesOnly hexec) ?_⟩
  rintro p ⟨k, hk, rfl⟩
  have hnibble : (BitVec.ofNat 4 k).toNat = k := Nat.mod_eq_of_lt (by omega)
  exact ⟨BitVec.ofNat 4 k, by rwa [hnibble], by rw [hnibble]⟩

/-- A loaded register holds the byte at its own address of the block (R94). -/
theorem execLoadRegs_getV {x k : Nibble} {s t : State} (h : execLoadRegs x s = .next t) (hk : k.toNat ≤ x.toNat) :
    s.mem.read (s.i.toNat + k.toNat) = some (t.getV k) := by
  obtain ⟨hi, rfl⟩ := next_of_fault_or_next (execLoadRegs_cases x s) h
  have hx := x.isLt
  rw [read_of_lt _ _ (by omega), getV_setVFrom _ _ _ (by simp; omega)]
  simp [show k.toNat < x.toNat + 1 by omega]

/-- Settles O39: the registers take the block's bytes in ascending order, or the load leaves the array. -/
theorem registersAreLoaded : Obligations.RegistersAreLoaded := by
  intro x s
  refine ⟨fun hi => ?_, fun hi => ((execLoadRegs_cases x s).resolve_right (by omega)).2⟩
  have hexec := ((execLoadRegs_cases x s).resolve_left (by omega)).2
  exact ⟨_, hexec, fun k hk => execLoadRegs_getV hexec hk, execLoadRegs_changesOnly hexec⟩

/-- Settles O40: a store that completes fits in the array, so the load from the same `I` completes too; both name the byte at the
register's own address. -/
theorem loadRestoresStoredRegisters : Obligations.LoadRestoresStoredRegisters := by
  intro x s t u hstore hi hmem
  obtain ⟨hfit, -⟩ := next_of_fault_or_next (execStoreRegs_cases x s) hstore
  obtain ⟨r, hload, hloaded, -⟩ := (registersAreLoaded x u).1 (by rwa [hi])
  refine ⟨r, hload, fun k hk => Option.some.inj ?_⟩
  calc some (r.getV k) = u.mem.read (u.i.toNat + k.toNat) := (hloaded k hk).symm
    _ = t.mem.read (s.i.toNat + k.toNat) := by rw [hi, hmem]
    _ = some (s.getV k) := execStoreRegs_mem_read hstore hk

end Sys2Proof.Machine

/-! ## 46_timers.md R96 to R99: who reads and who writes the timers, and when a write is counted. -/

namespace Sys2Proof.Machine

/-! ### Who writes the timers -/

/-- No instruction but `LD DT, Vx` may write `DT` (46_timers.md R97, R99). -/
theorem not_writes_dt {i : Instr} (hi : ∀ x, i ≠ .ldDtVx x) (s : State) : ¬ writes i s .dt := by
  cases i with
  | ldDtVx x => exact absurd rfl (hi x)
  | _ => simp [writes]

/-- No instruction but `LD ST, Vx` may write `ST` (46_timers.md R98, R99). -/
theorem not_writes_st {i : Instr} (hi : ∀ x, i ≠ .ldStVx x) (s : State) : ¬ writes i s .st := by
  cases i with
  | ldStVx x => exact absurd rfl (hi x)
  | _ => simp [writes]

/-- By the frame, every instruction but `LD DT, Vx` leaves `DT` as it was (46_timers.md R99). -/
theorem exec_dt {i : Instr} {s t : State} (hi : ∀ x, i ≠ .ldDtVx x) (h : exec i s = .next t) : t.dt = s.dt :=
  BitVec.eq_of_toNat_eq (Option.some.inj (instructionsWriteOnlyTheirParts i s t h .dt (not_writes_dt hi s)))

/-- By the frame, every instruction but `LD ST, Vx` leaves `ST` as it was (46_timers.md R99). -/
theorem exec_st {i : Instr} {s t : State} (hi : ∀ x, i ≠ .ldStVx x) (h : exec i s = .next t) : t.st = s.st :=
  BitVec.eq_of_toNat_eq (Option.some.inj (instructionsWriteOnlyTheirParts i s t h .st (not_writes_st hi s)))

/-- A step counts down each timer once, unless its instruction writes that timer (46_timers.md R99; 60_exceptions.md R118). -/
theorem step_counts_timers {s t : State} {w : Word} (hw : fetch s = .ok w) (h : step s = .next t) :
    ((∀ x, decodeWord w ≠ .ldDtVx x) → t.dt.toNat = s.dt.toNat - 1) ∧
    ((∀ x, decodeWord w ≠ .ldStVx x) → t.st.toNat = s.st.toNat - 1) := by
  obtain ⟨w', m, hw', he, rfl⟩ := (step_next_iff s t).mp h
  obtain rfl : w = w' := Except.ok.inj (hw.symm.trans hw')
  refine ⟨fun hdt => ?_, fun hst => ?_⟩
  · rw [epilogue_dt, countDown_toNat, exec_dt hdt he, advancePc_dt]
  · rw [epilogue_st, countDown_toNat, exec_st hst he, advancePc_st]

/-! ### Replacing `ST`, which no instruction reads -/

/-- The state with another value of `ST`. -/
def State.withSt (c : Byte) (s : State) : State := { s with st := c }

/-- Two key skips with the same key number and the same change to what each key leads to are related by that change. -/
theorem eq_mapNext_of_key_cases {o o' : Host.Outcome State Fault Refusal} {n : Nat} {f : Fault} {g : Fin 16 → State}
    {F : State → State} (h : (15 < n ∧ o = .fault f) ∨ ∃ j : Fin 16, j.val = n ∧ o = .next (g j))
    (h' : (15 < n ∧ o' = .fault f) ∨ ∃ j : Fin 16, j.val = n ∧ o' = .next (F (g j))) : o' = mapNext F o := by
  obtain ⟨hn, rfl⟩ | ⟨j, hj, rfl⟩ := h
  · exact fault_of_key_cases h' hn
  · exact next_of_key_cases h' hj

section WithSt
variable (c : Byte) (s : State)

/-- A skip reads its condition and `PC` alone. -/
theorem skipIf_withSt (p : Bool) : (s.withSt c).skipIf p = (s.skipIf p).withSt c := by cases p <;> rfl

/-- A load of registers does not reach `ST`. -/
theorem setVFrom_withSt (bs : List Byte) : ∀ (s : State) (k : Nat),
    (s.withSt c).setVFrom k bs = (s.setVFrom k bs).withSt c := by
  induction bs with
  | nil => intro s k; rfl
  | cons b bs ih => intro s k; exact ih (s.setV _ b) (k + 1)

/-! The parts that these three meanings branch on are the same in both states, and each branch commutes by rfl. -/

theorem execRet_withSt : execRet (s.withSt c) = mapNext (State.withSt c) (execRet s) := by
  have hsp : (s.withSt c).sp = s.sp := rfl
  have hentry : ∀ k, (s.withSt c).stackEntry k = s.stackEntry k := fun _ => rfl
  rw [execRet, execRet, hsp, hentry]
  split
  · rfl
  · cases s.stackEntry (s.sp.toNat - 1) <;> rfl

theorem execLdVxK_withSt (x : Nibble) : execLdVxK x (s.withSt c) = mapNext (State.withSt c) (execLdVxK x s) := by
  have hkey : (s.withSt c).lowestKey = s.lowestKey := rfl
  rw [execLdVxK, execLdVxK, hkey]
  cases s.lowestKey <;> rfl

theorem execDrw_withSt (x y n : Nibble) : execDrw x y n (s.withSt c) = mapNext (State.withSt c) (execDrw x y n s) := by
  have hscan := rows_congr s (s.withSt c) rfl rfl rfl
  have hgetV : ∀ k, (s.withSt c).getV k = s.getV k := fun _ => rfl
  have hfb : (s.withSt c).fb = s.fb := rfl
  rw [execDrw, execDrw, hscan, hgetV, hgetV, hfb]
  cases Scan.rows { fb := s.fb, hit := false } s (s.getV x).toNat (s.getV y).toNat (List.range n.toNat) <;> rfl

/-- An instruction other than `LD ST, Vx` does the same whatever `ST` holds, and leaves it as it was (46_timers.md R99). -/
theorem exec_withSt {i : Instr} (hi : ∀ x, i ≠ .ldStVx x) : exec i (s.withSt c) = mapNext (State.withSt c) (exec i s) := by
  cases i with
  | ldStVx x => exact absurd rfl (hi x)
  | ret ign => exact execRet_withSt c s
  | call nnn => exact eq_mapNext_of_fault_or_next (execCall_cases nnn s) (execCall_cases nnn (s.withSt c)) (by omega)
  | ldB x => exact eq_mapNext_of_fault_or_next (execLdB_cases x s) (execLdB_cases x (s.withSt c)) (by omega)
  | storeRegs x => exact eq_mapNext_of_fault_or_next (execStoreRegs_cases x s) (execStoreRegs_cases x (s.withSt c)) (by omega)
  | loadRegs x =>
    have h := execLoadRegs_cases x (s.withSt c)
    rw [setVFrom_withSt] at h
    exact eq_mapNext_of_fault_or_next (execLoadRegs_cases x s) h (by omega)
  | skp x ign =>
    have h := execSkp_cases x (s.withSt c)
    simp only [skipIf_withSt] at h
    exact eq_mapNext_of_key_cases (execSkp_cases x s) h
  | sknp x ign =>
    have h := execSknp_cases x (s.withSt c)
    simp only [skipIf_withSt] at h
    exact eq_mapNext_of_key_cases (execSknp_cases x s) h
  | ldVxK x => exact execLdVxK_withSt c s x
  | drw x y n => exact execDrw_withSt c s x y n
  | seImm | sneImm | seReg | sneReg => exact congrArg Host.Outcome.next (skipIf_withSt c s _)
  | cls | jp | jpV0 | ldImm | addImm | ldReg | orReg | andReg | xorReg | addReg | subReg | shr | subn | shl | ldI | rnd
  | ldVxDt | ldDtVx | addI | ldF | nop => rfl

end WithSt

/-! ### The timer instructions and their steps -/

/-- Settles O15: each timer instruction is one update, `ST` goes unread because it can be replaced, and the frame keeps the
counters in every other instruction. -/
theorem timerInstructionsAndNoOtherTouchTimers : Obligations.TimerInstructionsAndNoOtherTouchTimers :=
  ⟨fun x s => ⟨_, rfl, getV_setV_self s x s.dt, changesOnly_setV s x _⟩, fun _ s => ⟨_, rfl, rfl, changesOnly_dt s _⟩,
    fun _ s => ⟨_, rfl, rfl, changesOnly_st s _⟩, fun _ s c hi => exec_withSt c s hi, fun _ _ _ => rfl,
    fun _ _ _ => exec_dt, fun _ _ _ => step_counts_timers⟩

/-- A step whose fetched word decodes to an instruction that completes (30_encoding.md R45). -/
theorem step_of_decode {s m : State} {w : Word} {i : Instr} (hw : fetch s = .ok w) (hi : decodeWord w = i)
    (he : exec i s.advancePc = .next m) : step s = .next m.epilogue := step_next s m w hw (hi ▸ he)

/-- Settles O41: the epilogue counts what the instruction left in the timers, so a value written is counted and a value read is
not. -/
theorem timerWriteCountsTheWritingStep : Obligations.TimerWriteCountsTheWritingStep := fun _ _ _ hw =>
  ⟨fun hi => ⟨_, step_of_decode hw hi rfl, countDown_toNat _, countDown_toNat _⟩,
    fun hi => ⟨_, step_of_decode hw hi rfl, countDown_toNat _, countDown_toNat _⟩,
    fun hi => ⟨_, step_of_decode hw hi rfl, getV_setV_self _ _ _, countDown_toNat _⟩⟩

end Sys2Proof.Machine

/-! ## 47_key_wait.md R100, R101: the blocking input read. -/

namespace Sys2Proof.Machine

/-- A key wait with a key pressed takes the lowest-numbered one (R100). -/
theorem execLdVxK_of_lowest {s : State} {k : Fin 16} (x : Nibble) (hon : s.key[k.val] = true)
    (hmin : ∀ j : Fin 16, j.val < k.val → s.key[j.val] = false) :
    execLdVxK x s = .next (s.setV x (BitVec.ofNat 8 k.val)) := by
  rw [execLdVxK, (lowestKey_eq_some_iff s k).mpr ⟨k.isLt, hon, hmin⟩]

/-- A key wait with no key pressed moves `PC` back by 2 (R100). -/
theorem execLdVxK_of_none {s : State} (x : Nibble) (hoff : ∀ j : Fin 16, s.key[j.val] = false) :
    execLdVxK x s = .next { s with pc := s.pc - 2#16 } := by
  rw [execLdVxK, (lowestKey_eq_none_iff s).mpr hoff]

/-- The number of a key fits a register. -/
theorem ofNat_key_toNat (k : Fin 16) : (BitVec.ofNat 8 k.val).toNat = k.val := by
  rw [BitVec.toNat_ofNat, Nat.mod_eq_of_lt (by omega)]

/-- Settles O42: the two cases of the keypad, each an update of one part. -/
theorem keyWaitTakesTheLowestKey : Obligations.KeyWaitTakesTheLowestKey := fun x s =>
  ⟨fun k hon hmin => ⟨_, execLdVxK_of_lowest x hon hmin, by rw [getV_setV_self, ofNat_key_toNat], changesOnly_setV s x _⟩,
    fun hoff => ⟨_, execLdVxK_of_none x hoff, rfl, changesOnly_pc s _⟩⟩

/-! ### Waiting for any number of steps -/

/-- The timers are no part of the keypad. -/
@[simp] theorem epilogue_iterate_key (s : State) (n : Nat) : (State.epilogue^[n] s).key = s.key := by
  induction n with
  | zero => rfl
  | succ n ih => rw [Function.iterate_succ_apply', epilogue_key, ih]

/-- With no key pressed, a key wait puts back the `PC` the step advanced, and the step is its epilogue (R101). -/
theorem step_of_keyWait_none {s : State} {w : Word} {x : Nibble} (hw : fetch s = .ok w) (hi : decodeWord w = .ldVxK x)
    (hoff : ∀ j : Fin 16, s.key[j.val] = false) : step s = .next s.epilogue := by
  have hback : { s.advancePc with pc := s.advancePc.pc - 2#16 } = s := by
    rw [advancePc_pc, BitVec.add_sub_cancel]; rfl
  have he : exec (.ldVxK x) s.advancePc = _ := execLdVxK_of_none x hoff
  rw [hback] at he
  exact step_of_decode hw hi he

/-- Setting a key where none is pressed makes it the lowest one (10_state.md R26). -/
theorem hostSetKey_lowest {s : State} (k : Fin 16) (hoff : ∀ j : Fin 16, s.key[j.val] = false) :
    (hostSetKey k true s).key[k.val] = true ∧ ∀ j : Fin 16, j.val < k.val → (hostSetKey k true s).key[j.val] = false := by
  refine ⟨by simp [hostSetKey], fun j hj => ?_⟩
  have hne : k.val ≠ j.val := by omega
  simp [hostSetKey, hne, hoff]

/-- Once the host presses a key, the step at a key wait takes it and goes on (R101). -/
theorem step_of_keyWait_pressed {s : State} {w : Word} {x : Nibble} (hw : fetch s = .ok w) (hi : decodeWord w = .ldVxK x)
    (hoff : ∀ j : Fin 16, s.key[j.val] = false) (k : Fin 16) :
    ∃ u, step (hostSetKey k true s) = .next u ∧ u.pc = s.pc + 2#16 ∧ (u.getV x).toNat = k.val := by
  have hw' : fetch (hostSetKey k true s) = .ok w := (fetch_congr (fun _ => rfl) rfl).trans hw
  obtain ⟨hon, hmin⟩ := hostSetKey_lowest k hoff
  exact ⟨_, step_of_decode hw' hi (execLdVxK_of_lowest x hon hmin), rfl,
    by rw [epilogue_getV, getV_setV_self, ofNat_key_toNat]⟩

/-- Settles O43: with no key pressed each step is the epilogue alone, which leaves the wait and the keypad as they were; after
a press the wait takes the key. -/
theorem keyWaitRepeatsUntilAKeyIsPressed : Obligations.KeyWaitRepeatsUntilAKeyIsPressed := by
  intro s w x hw hi hoff n
  have hfetch (k : Nat) : fetch (State.epilogue^[k] s) = .ok w := (fetch_epilogue_iterate s k).trans hw
  have hkeys (k : Nat) : ∀ j : Fin 16, (State.epilogue^[k] s).key[j.val] = false := by simpa using hoff
  have hidle : ∀ k, step (State.epilogue^[k] s) = .next (State.epilogue^[k] s).epilogue := fun k =>
    step_of_keyWait_none (hfetch k) hi (hkeys k)
  refine ⟨_, run_of_step_eq_epilogue n hidle, hfetch n, epilogue_iterate_pc s n, epilogue_iterate_dt s n,
    epilogue_iterate_st s n, changesOnly_epilogue_iterate s n, fun k => ?_⟩
  rw [← epilogue_iterate_pc s n]
  exact step_of_keyWait_pressed (hfetch n) hi (hkeys n) k

end Sys2Proof.Machine

/-! ## 48_draw.md R102 to R109: the screen clear and the sprite draw. -/

namespace Sys2Proof.Machine

/-! ### The clear (R102) -/

/-- Every word 0??0 is the clear, with its bits 11..4 ignored (R102; 30_encoding.md R52). -/
theorem decodeWord_of_F00F_eq_zero {w : Word} (h : w &&& 0xF00F#16 = 0x0000#16) : decodeWord w = .cls (fieldMid w) := by
  obtain ⟨hop, hn⟩ := fields_eq_of_F00F h
  have hof : (Instr.cls (fieldMid w)).IsOf (packZ (fieldMid w) (fieldN w)) := ⟨rfl, by rw [hn]; rfl⟩
  rw [packZ_fields w hop] at hof
  exact hof.decodeWord_eq

/-- Settles O44: the clear is one update of the framebuffer, and 0x00E0 is one of its words. -/
theorem clearTurnsEveryPixelOff : Obligations.ClearTurnsEveryPixelOff := by
  refine ⟨fun w h => ⟨_, decodeWord_of_F00F_eq_zero h⟩, fun ign s => ⟨_, rfl, read_blank, rfl, ?_⟩, fun s hhi hlo => ?_⟩
  · exact instructionsWriteOnlyTheirParts (.cls ign) s _ rfl
  · have hw : composeWord 0x00#8 0xE0#8 &&& 0xF00F#16 = 0x0000#16 := by decide
    exact ⟨_, step_of_decode (fetch_of_read s _ _ hhi hlo) (decodeWord_of_F00F_eq_zero hw) rfl, rfl, read_blank⟩

/-! ### The draw (R104 to R107) -/

/-- The byte of a flag is 1 exactly when the flag is raised. -/
theorem flagByte_eq_one_iff (c : Bool) : flagByte c = 1#8 ↔ c = true := by cases c <;> decide

/-- The byte of a flag is 1 or 0 (R106). -/
theorem flagByte_eq_one_or (c : Bool) : flagByte c = 1#8 ∨ flagByte c = 0#8 := by cases c <;> decide

/-- A scan that starts without a collision reports one exactly where a pixel it flips was on (R106). -/
theorem Flipped.hit_iff {C : Fin 32 → Fin 64 → Prop} {f : Frame} {sc : Scan} (h : Flipped C { fb := f, hit := false } sc) :
    sc.hit = true ↔ ∃ y x, C y x ∧ f.read y x = true := by simpa using h.hit

/-- Settles O45: what the scan flipped and whether it collided, with the collision written to `VF` last. -/
theorem drawFlipsThePixelsUnderTheSprite : Obligations.DrawFlipsThePixelsUnderTheSprite := by
  intro x y n s hdef
  obtain ⟨sc, he, hsc⟩ := execDrw_ok x y n s hdef
  refine ⟨_, he, hsc.on, hsc.off, fun hon => ?_, fun hoff => ?_, execDrw_changesOnly he⟩
  · rw [getV_setV_self, hsc.hit_iff.mpr hon]; rfl
  · have hmiss : sc.hit = false := Bool.eq_false_iff.mpr fun hhit => by
      obtain ⟨py, px, hc, hon⟩ := hsc.hit_iff.mp hhit
      cases (hoff py px hc).symm.trans hon
    rw [getV_setV_self, hmiss]; rfl

/-! ### Drawing twice (R109) -/

/-- A draw completes only if each of its sprite rows is defined (R108). -/
theorem rowDefined_of_execDrw_next {x y n : Nibble} {s t : State} (h : execDrw x y n s = .next t) :
    ∀ r, r < n.toNat → rowDefined s y r :=
  (drw_defined_or x y n s).resolve_right fun ⟨f, hundef⟩ => by cases (execDrw_fault x y n s f hundef).symm.trans h

section SameSprite
variable {s u : State} {y : Nibble}

/-- Whether a sprite row is defined depends on `I`, the vertical origin and the sprite bytes alone (R108). -/
theorem rowDefined_congr (hi : u.i = s.i) (hy : u.getV y = s.getV y) (hm : ∀ a, u.mem.read a = s.mem.read a) (r : Nat) :
    rowDefined u y r ↔ rowDefined s y r := by rw [rowDefined, rowDefined, hi, hy, hm]

/-- The pixels under a sprite depend on `I`, the origin and the sprite bytes alone (R104, R105). -/
theorem underSprite_congr {x : Nibble} (n : Nibble) (hi : u.i = s.i) (hx : u.getV x = s.getV x) (hy : u.getV y = s.getV y)
    (hm : ∀ a, u.mem.read a = s.mem.read a) : underSprite u x y n = underSprite s x y n := by
  funext py px
  simp only [underSprite, hi, hx, hy, hm]

end SameSprite

/-- Flipping the same pixels again restores each of them (R109). -/
theorem Flipped.restores {C : Fin 32 → Fin 64 → Prop} {a b c : Scan} (h : Flipped C a b) {hit : Bool}
    (h' : Flipped C { fb := b.fb, hit := hit } c) : c.fb = a.fb := by
  refine frame_ext _ _ fun y x => ?_
  by_cases hc : C y x
  · rw [h'.on y x hc, h.on y x hc, Bool.not_not]
  · rw [h'.off y x hc, h.off y x hc]

/-- A second scan collides exactly where a pixel was off before the first (R109). -/
theorem Flipped.hit_again_iff {C : Fin 32 → Fin 64 → Prop} {a b c : Scan} (h : Flipped C a b)
    (h' : Flipped C { fb := b.fb, hit := false } c) : c.hit = true ↔ ∃ y x, C y x ∧ a.fb.read y x = false := by
  rw [h'.hit_iff]
  refine exists_congr fun y => exists_congr fun x => and_congr_right fun hc => ?_
  rw [h.on y x hc, Bool.not_eq_true']

/-- Settles O46: the second scan covers the pixels the first one did, over the framebuffer the first one left. -/
theorem drawingTwiceRestoresTheFramebuffer : Obligations.DrawingTwiceRestoresTheFramebuffer := by
  intro x y n s t u h hfb hi hx hy hm
  obtain ⟨sc, rfl, hsc⟩ := execDrw_next h
  have hdef : ∀ r, r < n.toNat → rowDefined u y r := fun r hr =>
    (rowDefined_congr hi hy hm r).mpr (rowDefined_of_execDrw_next h r hr)
  obtain ⟨sc', he, hsc'⟩ := execDrw_ok x y n u hdef
  rw [underSprite_congr n hi hx hy hm, hfb] at hsc'
  refine ⟨_, he, hsc.restores hsc', ?_, ?_⟩
  · rw [getV_setV_self, flagByte_eq_one_iff, hsc.hit_again_iff hsc']
  · rw [getV_setV_self]; exact flagByte_eq_one_or sc'.hit

end Sys2Proof.Machine

/-! ## 60_exceptions.md R112, R114, R118, R126: the epilogue, and when an instruction or a step is undefined. -/

namespace Sys2Proof.Machine

/-- Settles O7: the epilogue is applied to the state the instruction left, and counts the timers alone. -/
theorem epilogueRunsInEveryStep : Obligations.EpilogueRunsInEveryStep := fun s m w hw he =>
  ⟨m.epilogue, step_next s m w hw he, countDown_toNat m.dt, countDown_toNat m.st, changesOnly_epilogue m⟩

/-! ### The condition of each meaning that can be undefined (R112) -/

section Conditions
variable {o : Host.Outcome State Fault Refusal} {f g : Fault}

/-- An outcome that is a fault is that fault alone. -/
theorem fault_iff_of_fault (e : o = .fault f) : o = .fault g ↔ g = f := by
  rw [e, Host.Outcome.fault.injEq, eq_comm]

/-- An outcome that is a next state is no fault. -/
theorem ne_fault_of_next {t : State} (e : o = .next t) : o ≠ .fault g := fun h => by cases e.symm.trans h

/-- A meaning with one undefined condition reports it exactly where it holds. -/
theorem fault_iff_of_fault_or_next {P Q : Prop} {t : State} (h : (P ∧ o = .fault f) ∨ (Q ∧ o = .next t)) (hPQ : ¬ (P ∧ Q)) :
    o = .fault g ↔ P ∧ g = f := by
  obtain ⟨hP, e⟩ | ⟨hQ, e⟩ := h
  · rw [fault_iff_of_fault e, and_iff_right hP]
  · exact iff_of_false (ne_fault_of_next e) fun ⟨hP, _⟩ => hPQ ⟨hP, hQ⟩

/-- A meaning that reads a key reports a key number above 15 (41_conditional_skip.md R69, R70; log 8). -/
theorem fault_iff_of_key_cases {n : Nat} {t : Fin 16 → State}
    (h : (15 < n ∧ o = .fault f) ∨ ∃ j : Fin 16, j.val = n ∧ o = .next (t j)) : o = .fault g ↔ 15 < n ∧ g = f := by
  obtain ⟨hn, e⟩ | ⟨j, hj, e⟩ := h
  · rw [fault_iff_of_fault e, and_iff_right hn]
  · exact iff_of_false (ne_fault_of_next e) fun ⟨hn, _⟩ => by omega

/-- A return reports an empty stack, or an `SP` above the 16 entries (40_control_transfer.md R62; log 11). -/
theorem execRet_fault_iff {s : State} : execRet s = .fault g ↔ (s.sp.toNat = 0 ∧ g = .stackUnderflow (s.pc - 2#16)) ∨
    (16 < s.sp.toNat ∧ g = .stackEntryMissing (s.pc - 2#16)) := by
  obtain ⟨hsp, e⟩ | ⟨hsp, e⟩ | ⟨k, hk, e⟩ := execRet_cases s
  · rw [fault_iff_of_fault e]
    simp [hsp]
  · have hne : s.sp.toNat ≠ 0 := by omega
    rw [fault_iff_of_fault e]
    simp [hsp, hne]
  · refine iff_of_false (ne_fault_of_next e) ?_
    rintro (⟨hsp, -⟩ | ⟨hsp, -⟩) <;> omega

/-- A draw reports its first undefined row and no other (48_draw.md R108; R114). -/
theorem execDrw_fault_iff {x y n : Nibble} {s : State} : execDrw x y n s = .fault g ↔ UndefinedAt s (.drw x y n) g := by
  refine ⟨fun h => ?_, execDrw_fault x y n s g⟩
  obtain hdef | ⟨f, hundef⟩ := drw_defined_or x y n s
  · obtain ⟨sc, e, -⟩ := execDrw_ok x y n s hdef
    exact absurd h (ne_fault_of_next e)
  · rwa [(fault_iff_of_fault (execDrw_fault x y n s f hundef)).mp h]

end Conditions

/-- An instruction is undefined exactly under its listed condition (R112, R114). -/
theorem exec_fault_iff (i : Instr) (s : State) (f : Fault) : exec i s = .fault f ↔ UndefinedAt s i f := by
  cases i with
  | ret ign => exact execRet_fault_iff
  | call nnn => exact fault_iff_of_fault_or_next (execCall_cases nnn s) (by omega)
  | skp x ign => exact fault_iff_of_key_cases (execSkp_cases x s)
  | sknp x ign => exact fault_iff_of_key_cases (execSknp_cases x s)
  | ldB x => exact fault_iff_of_fault_or_next (execLdB_cases x s) (by omega)
  | storeRegs x => exact fault_iff_of_fault_or_next (execStoreRegs_cases x s) (by omega)
  | loadRegs x => exact fault_iff_of_fault_or_next (execLoadRegs_cases x s) (by omega)
  | drw x y n => exact execDrw_fault_iff
  | ldVxK x =>
    obtain ⟨-, e⟩ | ⟨k, -, -, e⟩ := execLdVxK_cases x s
    · exact iff_of_false (ne_fault_of_next e) id
    · exact iff_of_false (ne_fault_of_next e) id
  | cls | jp | seImm | sneImm | seReg | ldImm | addImm | ldReg | orReg | andReg | xorReg | addReg | subReg | shr | subn | shl
  | sneReg | ldI | jpV0 | rnd | ldVxDt | ldDtVx | ldStVx | addI | ldF | nop => exact iff_of_false (ne_fault_of_next rfl) id

/-- Settles O10: the conditions instruction by instruction; an instruction that meets none is no fault, so it completes. -/
theorem undefinedExactlyWhenListed : Obligations.UndefinedExactlyWhenListed :=
  ⟨exec_fault_iff, fun i s hdef => (exec_nextOrFault i s).resolve_right fun ⟨f, hf⟩ => hdef f ((exec_fault_iff i s f).mp hf)⟩

/-! ### The condition of a step (R126) -/

/-- A fetch is undefined exactly above 0xFFE (30_encoding.md R46). -/
theorem fetch_eq_error_iff (s : State) (f : Fault) :
    fetch s = .error f ↔ 0xFFE < s.pc.toNat ∧ f = .fetchOutOfRange s.pc := by
  by_cases h : 0xFFE < s.pc.toNat
  · simp [fetch_of_gt s h, h, eq_comm]
  · simp [fetch_of_le s (by omega), h]

/-- Settles O11: a step's fault is its fetch's or its instruction's, and each has its listed condition. -/
theorem stepGoesWrongExactlyWhenListed : Obligations.StepGoesWrongExactlyWhenListed := by
  intro s
  simp only [GoesWrong, step_fault_iff, fetch_eq_error_iff, exec_fault_iff]
  constructor
  · rintro ⟨f, ⟨hpc, -⟩ | ⟨w, hw, hundef⟩⟩
    · exact .inl hpc
    · exact .inr ⟨w, f, hw, hundef⟩
  · rintro (hpc | ⟨w, f, hw, hundef⟩)
    · exact ⟨_, .inl ⟨hpc, rfl⟩⟩
    · exact ⟨f, .inr ⟨w, hw, hundef⟩⟩

end Sys2Proof.Machine

/-! ## 70_reset_and_hazards.md R130 to R136: load, reset, and running without a load. -/

namespace Sys2Proof.Machine

/-! ### Load (R132, R133, R136) -/

/-- Settles O50: an image that fits is a block put at 0x200, and the next fetch reads the memory it was put in. -/
theorem loadPlacesTheImage : Obligations.LoadPlacesTheImage := by
  intro image s hlen
  have hfit : 0x200 + image.length ≤ 0x1000 := by omega
  have hread (k : Nat) (b : Byte) (hb : image[k]? = some b) :
      (s.mem.putBytes 0x200 image).read (0x200 + k) = some b := by
    obtain ⟨hk, -⟩ := List.getElem?_eq_some_iff.mp hb
    rw [read_putBytes_add _ _ _ _ hfit hk, hb]
  refine ⟨_, hostLoad_of_le image s hlen, hread, changesOnly_putBytes s 0x200 image hfit, ?_, fun k hi lo hhi hlo hpc => ?_⟩
  · rintro rfl; rfl
  · refine ⟨_, fetch_of_read _ hi lo ?_ ?_, composeWord_toNat hi lo⟩
    · rw [hpc]; exact hread k hi hhi
    · rw [hpc]; exact hread (k + 1) lo hlo

/-- Settles O51: the block an oversize image makes leaves the array (decision D22, log 17). -/
theorem oversizeLoadIsUndefined : Obligations.OversizeLoadIsUndefined := by
  intro image s hlen
  have hne : image ≠ [] := by rintro rfl; simp at hlen
  rw [hostLoad, writeBytes_of_gt image s.mem Config.progBase hne (by simp only [Config.progBase]; omega)]

/-! ### Reset and the run it starts (R130, R131, R135) -/

/-- Settles O49: a reset is the reset state but for the draw counter it keeps. -/
theorem resetFromAnyState : Obligations.ResetFromAnyState := fun s => ⟨changesOnly_draw State.reset s.draw, rfl⟩

/-- The reset state with `PC` moved on by `n` instructions. -/
def State.resetAfter (n : Nat) : State := { State.reset with pc := BitVec.ofNat 16 (0x200 + 2 * n) }

theorem resetAfter_pc_toNat {n : Nat} (hn : n ≤ 1792) : (State.resetAfter n).pc.toNat = 0x200 + 2 * n := by
  simp [State.resetAfter]; omega

/-- Memory from 0x200 up is zero after reset, so that the word fetched there is 0x0000 (20_memory.md R31). -/
theorem fetch_resetAfter {n : Nat} (hn : n < 1792) : fetch (State.resetAfter n) = .ok 0x0000#16 := by
  have hzero (a : Nat) (hlo : 0x200 ≤ a) (hhi : a ≤ 0xFFF) : State.reset.mem.read a = some 0#8 := by
    rw [reset_mem_read a hhi, initial_zero a (by omega)]
  have hpc := resetAfter_pc_toNat hn.le
  exact fetch_of_read _ 0#8 0#8 (hzero _ (by omega) (by omega)) (hzero _ (by omega) (by omega))

/-- The clear leaves the blank screen of reset as it is, and the step moves `PC` on (R135). -/
theorem step_resetAfter {n : Nat} (hn : n < 1792) : step (State.resetAfter n) = .next (State.resetAfter (n + 1)) := by
  have hpc : (State.resetAfter n).pc + 2#16 = (State.resetAfter (n + 1)).pc := by
    rw [State.resetAfter, State.resetAfter, ← BitVec.ofNat_add]; rfl
  rw [step_of_decode (fetch_resetAfter hn) (decodeWord_of_F00F_eq_zero (by decide)) rfl]
  show Host.Outcome.next { State.reset with pc := (State.resetAfter n).pc + 2#16 } = _
  rw [hpc]; rfl

/-- Running without a load (R135). -/
theorem run_reset {n : Nat} (hn : n ≤ 1792) : Host.Core.run core n State.reset = .next (State.resetAfter n) := by
  induction n with
  | zero => rfl
  | succ n ih => exact run_snoc n _ _ _ (ih (by omega)) (step_resetAfter hn)

/-- Settles O52: the run stays at the reset state with `PC` moved on, until `PC` leaves the array. -/
theorem emptyMemoryClearsUntilItOverruns : Obligations.EmptyMemoryClearsUntilItOverruns := by
  refine ⟨fun n hn => ⟨_, run_reset hn, resetAfter_pc_toNat hn, changesOnly_pc _ _, fetch_resetAfter⟩, ⟨_, rfl⟩, fun t ht => ?_⟩
  obtain rfl := next_unique (run_reset le_rfl) ht
  have hpc := resetAfter_pc_toNat le_rfl
  exact ⟨hpc, step_of_pc_gt (by omega)⟩

end Sys2Proof.Machine
